-- ==== Sys2Proof/Word.lean ====
section
/-! DEFINITION. The value widths of CKFX16 (spec/00_scope.md R4, R6) and the operand kinds of a command (spec/30_encoding.md R53, R55). -/

namespace Sys2Proof

/-- A byte, 0..255 (R6). -/
abbrev Byte := BitVec 8

/-- A 4-bit quantity: the fields `op` and `a` of a command word (R53), `LEN` (R12), `ERR` (R14), a response status (R54). -/
abbrev Nibble := BitVec 4

/-- `CMD_W` = 16 bits: a command word (R53), the running register (R11), a code (R73). -/
abbrev Word16 := BitVec 16

/-- `VAL_W` = 32 bits: a response value (R54). -/
abbrev Word32 := BitVec 32

/-- The selector operand of `VRFY`: 0 response, 1 request, 2 generic (R55, R60, R79). -/
inductive FrameKind where
  /-- `RSP`, 0: a response frame. -/
  | rsp
  /-- `REQ`, 1: a request frame. -/
  | req
  /-- `GEN`, 2: a generic frame whose last two bytes are its code. -/
  | gen
deriving DecidableEq, Repr

end Sys2Proof
end

