-- ==== Sys2Proof/Config.lean ====
section
/-! DEFINITION. The fixed parameters of spec/00_scope.md R4 and the free values of spec/93_implementation_defined.md U3. -/

namespace Sys2Proof.Config

/-- `POLY`: the feedback constant XORed into the register (R4, R70). With `crcInit` and `crcXorOut` it is the parameter set
that R74 law 8 names CRC-16/X-25 (general knowledge in the spec; log entry 15). -/
def poly : Word16 := 0x8408

/-- `CRC_INIT`: the register before the first byte (R4, R72). -/
def crcInit : Word16 := 0xFFFF

/-- `CRC_XOROUT`: the code is the register XOR this (R4, R73). -/
def crcXorOut : Word16 := 0xFFFF

/-- `REQ_DATA`: logical bytes of a request covered by its code (R4). -/
def reqData : Nat := 8

/-- `REQ_LEN`: bytes of a request on the wire (R4). -/
def reqLen : Nat := 10

/-- `RSP_DATA`: bytes of a response covered by its code (R4). -/
def rspData : Nat := 6

/-- `RSP_LEN`: bytes of a response on the wire (R4). -/
def rspLen : Nat := 8

/-- Bytes of a code on the wire (R33, R73). -/
def codeLen : Nat := 2

/-- `FLD_OFF`: index of the first data byte of a response (R4). -/
def fldOff : Nat := 2

/-- `FLD_LEN`: number of data bytes of a response (R4). -/
def fldLen : Nat := 4

/-- `FB_SIZE`: bytes in the frame buffer (R4, R15). -/
def fbSize : Nat := 10

/-- The largest legal count of `CRCF` (R56). -/
def countMax : Nat := 10

/-- The largest legal index of `XBYT` (R56). -/
def payloadMax : Nat := 5

/-- The largest legal index of `RDFB` (R56). -/
def bufferMax : Nat := 9

/-- What `rsp_st` carries at a clock edge where `rsp_valid` is 0: unspecified, may differ from cycle to cycle (R52 (g),
93 U3). A FREE VALUE: no body, applied to the edge's number (log entry 10). -/
opaque idleRspSt : Nat → Nibble

/-- What `rsp_val` carries at a clock edge where `rsp_valid` is 0 (R52 (g), 93 U3). A FREE VALUE (log entry 10). -/
opaque idleRspVal : Nat → Word32

end Sys2Proof.Config
end

