-- ==== Sys2Proof/Syntax.lean ====
section
/-! DEFINITION. The twelve commands (spec/30_encoding.md R56), one constructor per row of spec/opcode_table.json. -/

namespace Sys2Proof

/-- A command of the block. An operand is held at the width of its field in the command word (R53); its legal range (R56)
is the check of WellFormed.lean. -/
inductive Instr where
  /-- `CLR`: soft reset (R120). -/
  | clr
  /-- `PUSH d`: append byte `d` to the frame buffer (R90). -/
  | push (d : Byte)
  /-- `CRCI`: initialise the running register (R75). -/
  | crci
  /-- `CRCB d`: absorb byte `d` into the running register (R76). -/
  | crcb (d : Byte)
  /-- `CRCR`: read the code of the bytes absorbed so far (R77). -/
  | crcr
  /-- `CRCF n`: compute the code of `FB[0..n-1]` (R78). -/
  | crcf (n : Nibble)
  /-- `SEAL`: append the code of `FB[0..7]` as `FB[8..9]` (R94). -/
  | sealReq
  /-- `VRFY k`: verify the frame in the buffer (R79). -/
  | vrfy (k : FrameKind)
  /-- `XFLD`: extract the 32-bit big-endian data field (R100). -/
  | xfld
  /-- `XBYT i`: extract one payload byte (R106). -/
  | xbyt (i : Nibble)
  /-- `RDFB i`: read one raw buffer byte (R92). -/
  | rdfb (i : Nibble)
  /-- `STAT`: read the status view (R122). -/
  | stat
deriving DecidableEq, Repr

end Sys2Proof
end

