-- ==== Sys2Proof/WellFormed.lean ====
section
/-! DEFINITION. Which instruction terms stand for a legal command word: the "Legal `a`" column of spec/30_encoding.md R56. -/

namespace Sys2Proof

/-- The operand lies in the legal range of R56. `PUSH` and `CRCB` take every byte (R76, R90), and a `FrameKind` has exactly
the three legal selectors of `VRFY`. -/
def Instr.wf : Instr → Bool
  | .clr => true
  | .push _ => true
  | .crci => true
  | .crcb _ => true
  | .crcr => true
  | .crcf n => decide (n.toNat ≤ Config.countMax)
  | .sealReq => true
  | .vrfy _ => true
  | .xfld => true
  | .xbyt i => decide (i.toNat ≤ Config.payloadMax)
  | .rdfb i => decide (i.toNat ≤ Config.bufferMax)
  | .stat => true

end Sys2Proof
end

