-- ==== Sys2Proof/Decode.lean ====
section
/-! DEFINITION. The command word and its decoder (spec/30_encoding.md R53, R57, R58), the encoder (R56, R60) and the opcode
table (R56). -/

namespace Sys2Proof

/-! ### The fields of a command word (R53) -/

/-- `op = cmd[15:12]` (R53). -/
def fieldOp (w : Word16) : Nibble := w.extractLsb' 12 4

/-- `a = cmd[11:8]` (R53, R55). -/
def fieldA (w : Word16) : Nibble := w.extractLsb' 8 4

/-- `d = cmd[7:0]` (R53, R55). -/
def fieldD (w : Word16) : Byte := w.extractLsb' 0 8

/-- `cmd = op*4096 + a*256 + d` (R53). -/
def commandWord (op a : Nibble) (d : Byte) : Word16 := BitVec.ofNat 16 (op.toNat * 4096 + a.toNat * 256 + d.toNat)

/-! ### The decoder (R58) -/

/-- Why a word is illegal: the three kinds of R57. Every kind faults `ILLEGAL` alike; where a word is of kinds (b) and (c)
at once the decoder names (b) (log entry 7). -/
inductive Illegal where
  /-- R57 (a): `op` is 0xC, 0xD, 0xE or 0xF. -/
  | reservedOpcode
  /-- R57 (b): a non-zero bit in a field the command does not use. -/
  | unusedField
  /-- R57 (c): `a` is outside the command's legal range. -/
  | operandRange
deriving DecidableEq, Repr

/-- What a command word decodes to (R58). -/
inductive Decoded where
  | command (i : Instr)
  | illegal (why : Illegal)
deriving DecidableEq, Repr

/-- Format Z of the opcode table: neither `a` nor `d` is used (R57 (b)). -/
def decodeNone (a : Nibble) (d : Byte) (i : Instr) : Decoded :=
  if a = 0 ∧ d = 0 then .command i else .illegal .unusedField

/-- Format D: `d` is the operand, `a` is not used (R57 (b)). -/
def decodeByte (a : Nibble) (i : Instr) : Decoded :=
  if a = 0 then .command i else .illegal .unusedField

/-- Format A: `a` is the operand with a largest legal value, `d` is not used (R57 (b), (c)). -/
def decodeSmall (a : Nibble) (d : Byte) (max : Nat) (i : Instr) : Decoded :=
  if d = 0 then
    if a.toNat ≤ max then .command i else .illegal .operandRange
  else .illegal .unusedField

/-- The selector of `VRFY` (R55): 0, 1, 2, else out of range. -/
def decodeKind (a : Nibble) (d : Byte) : Decoded :=
  if d = 0 then
    match a.toNat with
    | 0 => .command (.vrfy .rsp)
    | 1 => .command (.vrfy .req)
    | 2 => .command (.vrfy .gen)
    | _ => .illegal .operandRange
  else .illegal .unusedField

/-- The decoder, total on all 65536 words (R58). -/
def decode (w : Word16) : Decoded :=
  match (fieldOp w).toNat with
  | 0x0 => decodeNone (fieldA w) (fieldD w) .clr
  | 0x1 => decodeByte (fieldA w) (.push (fieldD w))
  | 0x2 => decodeNone (fieldA w) (fieldD w) .crci
  | 0x3 => decodeByte (fieldA w) (.crcb (fieldD w))
  | 0x4 => decodeNone (fieldA w) (fieldD w) .crcr
  | 0x5 => decodeSmall (fieldA w) (fieldD w) Config.countMax (.crcf (fieldA w))
  | 0x6 => decodeNone (fieldA w) (fieldD w) .sealReq
  | 0x7 => decodeKind (fieldA w) (fieldD w)
  | 0x8 => decodeNone (fieldA w) (fieldD w) .xfld
  | 0x9 => decodeSmall (fieldA w) (fieldD w) Config.payloadMax (.xbyt (fieldA w))
  | 0xA => decodeSmall (fieldA w) (fieldD w) Config.bufferMax (.rdfb (fieldA w))
  | 0xB => decodeNone (fieldA w) (fieldD w) .stat
  | _ => .illegal .reservedOpcode

/-- The instruction of a decoded word, if it is one. -/
def Decoded.instr? : Decoded → Option Instr
  | .command i => some i
  | .illegal _ => none

/-- The decoder's reading of a row of spec/opcode_table.json: bit 0 of `w` is bit 0 of the one command word, bits from
`nbits` up are 0. A command word is a number on a port and has no byte order (R50, R53; log entry 16). -/
def decodeTableWord (nbits w : Nat) : Option Instr :=
  (decode (BitVec.ofNat 16 (w % 2 ^ nbits))).instr?

/-! ### The encoder (R56, R60) -/

/-- The selector of a frame kind (R55). -/
def FrameKind.code : FrameKind → Nibble
  | .rsp => 0
  | .req => 1
  | .gen => 2

/-- The word of a command: `op*4096 + a*256 + d` with the unused fields 0 (R56, R60). -/
def encode : Instr → Word16
  | .clr => commandWord 0x0 0 0
  | .push d => commandWord 0x1 0 d
  | .crci => commandWord 0x2 0 0
  | .crcb d => commandWord 0x3 0 d
  | .crcr => commandWord 0x4 0 0
  | .crcf n => commandWord 0x5 n 0
  | .sealReq => commandWord 0x6 0 0
  | .vrfy k => commandWord 0x7 k.code 0
  | .xfld => commandWord 0x8 0 0
  | .xbyt i => commandWord 0x9 i 0
  | .rdfb i => commandWord 0xA i 0
  | .stat => commandWord 0xB 0 0

/-! ### The opcode table (R56) -/

/-- A row of R56: mnemonic, `match`, `mask`, and the largest legal `a`. -/
structure OpcodeRow where
  mnemonic : String
  pattern : Word16
  mask : Word16
  aMax : Nat
deriving DecidableEq, Repr

/-- A word selects a row when `(w and mask) = match` and its `a` is in the row's legal range (R56). -/
def OpcodeRow.selects (r : OpcodeRow) (w : Word16) : Bool :=
  (w &&& r.mask == r.pattern) && decide ((fieldA w).toNat ≤ r.aMax)

/-- The row of R56 an instruction belongs to. -/
def Instr.row : Instr → OpcodeRow
  | .clr => ⟨"CLR", 0x0000, 0xFFFF, 0⟩
  | .push _ => ⟨"PUSH", 0x1000, 0xFF00, 0⟩
  | .crci => ⟨"CRCI", 0x2000, 0xFFFF, 0⟩
  | .crcb _ => ⟨"CRCB", 0x3000, 0xFF00, 0⟩
  | .crcr => ⟨"CRCR", 0x4000, 0xFFFF, 0⟩
  | .crcf _ => ⟨"CRCF", 0x5000, 0xF0FF, 10⟩
  | .sealReq => ⟨"SEAL", 0x6000, 0xFFFF, 0⟩
  | .vrfy _ => ⟨"VRFY", 0x7000, 0xF0FF, 2⟩
  | .xfld => ⟨"XFLD", 0x8000, 0xFFFF, 0⟩
  | .xbyt _ => ⟨"XBYT", 0x9000, 0xF0FF, 5⟩
  | .rdfb _ => ⟨"RDFB", 0xA000, 0xF0FF, 9⟩
  | .stat => ⟨"STAT", 0xB000, 0xFFFF, 0⟩

/-- The twelve rows of R56, in the table's order. -/
def opcodeTable : List OpcodeRow :=
  [Instr.clr.row, (Instr.push 0).row, Instr.crci.row, (Instr.crcb 0).row, Instr.crcr.row, (Instr.crcf 0).row] ++
  [Instr.sealReq.row, (Instr.vrfy .rsp).row, Instr.xfld.row, (Instr.xbyt 0).row, (Instr.rdfb 0).row, Instr.stat.row]

end Sys2Proof
end

