-- ==== Sys2Proof/Machine/Checksum.lean ====
section
/-! DEFINITION. The checksum engine's pure functions (spec/00_scope.md R9, spec/40_checksum.md R70 to R74, R80). -/

namespace Sys2Proof.Machine

/-- One iteration: the register takes one data bit (R70). -/
def crcBit (r : Word16) (b : Bool) : Word16 :=
  if (r.getLsbD 0 ^^ b) = true then (r >>> 1) ^^^ Config.poly else r >>> 1

/-- The register before an iteration, recovered from its result `q` and its data bit (R74 law 4):
`f = q[15]`, `r1 = q xor 0x8408` if `f = 1` else `q`, `r = {r1[14:0], f xor b}`. -/
def crcUnbit (q : Word16) (b : Bool) : Word16 :=
  let f := q.getLsbD 15
  let r1 := if f = true then q ^^^ Config.poly else q
  (r1 <<< 1) ||| (BitVec.ofBool (f ^^ b)).setWidth 16

/-- One byte absorbed: eight iterations, bit 0 first (R71). -/
def crcByte (r : Word16) (d : Byte) : Word16 :=
  [0, 1, 2, 3, 4, 5, 6, 7].foldl (fun q i => crcBit q (d.getLsbD i)) r

/-- A byte sequence absorbed, first byte first (R72). -/
def crcBytes (r : Word16) (s : List Byte) : Word16 :=
  s.foldl crcByte r

/-- The code of a register: its bitwise complement (R73). -/
def codeOf (r : Word16) : Word16 := r ^^^ Config.crcXorOut

/-- `lo(c) = c[7:0]` (R9). -/
def lo (c : Word16) : Byte := c.extractLsb' 0 8

/-- `hi(c) = c[15:8]` (R9). -/
def hi (c : Word16) : Byte := c.extractLsb' 8 8

/-- The two bytes of a code in wire order, low byte first (R33, R73). -/
def codeBytes (c : Word16) : List Byte := [lo c, hi c]

/-- The code of a byte sequence of any length (R72). A function of the sequence alone, defined on every sequence, the empty one
included (R74 laws 1 to 3). -/
def compute (s : List Byte) : Word16 := codeOf (crcBytes Config.crcInit s)

/-- The byte-exact comparison of R80: the two code bytes `c0`, `c1` against the code of the data bytes. -/
def codeMatches (data : List Byte) (c0 c1 : Byte) : Bool :=
  c0 == lo (compute data) && c1 == hi (compute data)

/-- `verify(F, n)`, defined when the frame holds `n` data bytes and two code bytes, and not otherwise (R80). -/
def verify (frame : List Byte) (n : Nat) (h : n + 2 ≤ frame.length) : Bool :=
  codeMatches (frame.take n) (frame[n]'(by omega)) (frame[n + 1]'(by omega))

end Sys2Proof.Machine
end

