-- ==== Sys2Proof/Machine/State.lean ====
section
/-! DEFINITION. The state of CKFX16 (spec/10_state.md R10 to R15, spec/70_reset_and_hazards.md R160), what the model keeps beside it to
make a deterministic machine of a block that is handed its commands, and the reasons a step can stop. -/

namespace Sys2Proof.Machine

/-- The frame buffer's contents: the bytes that are not 0x00, addresses strictly rising (log entry 6). An address that is
not listed reads as 0x00, the reset value of every byte of `FB` (R15). The form is `Memory.wf` in Ops.lean. -/
abbrev Memory := List Host.Cell

/-- The architectural state, "exactly the five items" of R10. -/
structure Block where
  /-- `CRC`, the running register, not complemented (R11). -/
  crc : Word16
  /-- `LEN`, the fill level of the frame buffer and the write pointer (R12). -/
  len : Nibble
  /-- `VOK`, the verified flag (R13). -/
  vok : Bool
  /-- `ERR`, the code of the first fault since the last clear or reset (R14). -/
  err : Nibble
  /-- `FB[0..9]`, the frame buffer (R15). -/
  fb : Memory
deriving DecidableEq, Repr

/-- The response to one command: the pair (status, value) (R51, R54). -/
structure Response where
  st : Nibble
  val : Word32
deriving DecidableEq, Repr

/-- What the host can do to the block: present a command word, or assert reset for a clock edge (R43, R161). -/
inductive HostInput where
  /-- The block accepts this command word (R51). -/
  | command (w : Word16)
  /-- One clock edge with `rst = 1`; a command on the same edge is not accepted (R138, R161). -/
  | reset
deriving DecidableEq, Repr

/-- The fault codes of R131 but 0 (`OK`). Taking one is `raise` in Ops.lean: a next state, not a stop. -/
inductive FaultCode where
  /-- 1: the word is not a legal command word (R132). -/
  | illegal
  /-- 2: the buffer holds fewer bytes than the command needs (R133). -/
  | malformed
  /-- 3: `PUSH` on a full buffer (R134). -/
  | overflow
  /-- 4: a typed read of a buffer that holds no verified response (R135). -/
  | unverified
deriving DecidableEq, Repr

/-- Reasons the model stops at a fault of its own. -/
inductive Fault where
  /-- An access to a byte index outside `FB[0..9]`, which the spec says does not exist (R8, R30). Raised by `within`
  (Ops.lean), for `PUSH` and `VRFY 2` only, and only when `LEN` is 11..15, which no run reaches (R12). SAFE: the model stops
  where the spec gives no behaviour (log entry 4). -/
  | bufferBounds
deriving DecidableEq, Repr

/-- Reasons the model has no meaning for an instruction. -/
inductive Refusal where
  /-- An arm of `exec` without a meaning, by mnemonic. Raised by no arm of this model. SAFE. -/
  | notModelled (mnemonic : String)
deriving DecidableEq, Repr

/-- The model's state: the block, and beside it what the host will present and what the block has answered (log entry 1). -/
structure State where
  /-- The architectural state (R10). -/
  blk : Block
  /-- What the host presents next, first one first (R40, R43). The model's own field. -/
  inputs : List HostInput
  /-- The responses given so far, oldest first (R52 (f), R54). The model's own field. -/
  rsps : List Response
deriving DecidableEq, Repr

/-- What a step or an instruction's meaning answers. -/
abbrev Result := Host.Outcome State Fault Refusal

/-- The reset state of the block (R160); every value is the spec's. -/
def Block.reset : Block where
  crc := 0xFFFF
  len := 0
  vok := false
  err := 0
  fb := []

/-- The machine right after reset: the block at R160, nothing presented yet, nothing answered yet (log entry 1). -/
def State.reset : State where
  blk := Block.reset
  inputs := []
  rsps := []

end Sys2Proof.Machine
end

