-- ==== Sys2Proof/Machine/Ops.lean ====
section
/-! DEFINITION. The named operations over memory and registers: the frame buffer's primitives (spec/00_scope.md R8), ending a
command with a response, taking a fault (spec/60_exceptions.md R140) and reset (spec/70_reset_and_hazards.md R161). -/

namespace Sys2Proof.Machine

/-! ### The frame buffer as a canonical list (R8, R15; log entry 6) -/

/-- What a byte of the frame buffer that is not listed reads as: 0x00, the reset contents (R15). -/
def Memory.unlisted : Byte := 0x00

/-- The canonical form from address `lo` up: addresses strictly rising and inside the buffer, no listed byte 0x00. -/
def Memory.wfFrom : Nat → Memory → Bool
  | _, [] => true
  | lo, (a, v) :: m =>
    decide (lo ≤ a) && decide (a < Config.fbSize) && decide (v ≠ Memory.unlisted) && Memory.wfFrom (a + 1) m

/-- The canonical form of the frame buffer. -/
def Memory.wf (m : Memory) : Bool := Memory.wfFrom 0 m

/-- One byte: `FB[a]`. -/
def Memory.read : Memory → Nat → Byte
  | [], _ => Memory.unlisted
  | (a', v) :: m, a => if a' = a then v else Memory.read m a

/-- One byte put in front of a list, unless it is what an unlisted address reads as. -/
def Memory.cons (a : Nat) (v : Byte) (m : Memory) : Memory :=
  if v = Memory.unlisted then m else (a, v) :: m

/-- One byte written, keeping the canonical form: `FB[a] <- v`. -/
def Memory.write : Memory → Nat → Byte → Memory
  | [], a, v => Memory.cons a v []
  | (a', v') :: m, a, v =>
    if a < a' then Memory.cons a v ((a', v') :: m)
    else if a = a' then Memory.cons a v m
    else (a', v') :: Memory.write m a v

/-- `MemRead(addr, n)`: the bytes `FB[addr], FB[addr+1], ...` in that order (R8). -/
def Memory.readBytes (m : Memory) : Nat → Nat → List Byte
  | _, 0 => []
  | addr, n + 1 => m.read addr :: Memory.readBytes m (addr + 1) n

/-- `MemWrite(addr, n, bytes)`: the bytes written to `FB[addr], FB[addr+1], ...` in that order (R8). -/
def Memory.writeBytes (m : Memory) : Nat → List Byte → Memory
  | _, [] => m
  | addr, v :: vs => Memory.writeBytes (m.write addr v) (addr + 1) vs

/-- The buffer with every byte 0x00 (R15). -/
def Memory.cleared : Memory := []

/-- The precondition of `MemRead` and `MemWrite`: "used only with `addr + n <= 10`" (R8). Outside it the model stops by name
(log entry 4). -/
def within (addr n : Nat) (r : Result) : Result :=
  if addr + n ≤ Config.fbSize then r else .fault .bufferBounds

/-! ### Ending a command (R8, R54, R140) -/

/-- The status `OK` (R131). -/
def okCode : Nibble := 0

/-- The code of a fault: the value of `st` and the value written to `ERR` (R131). -/
def FaultCode.code : FaultCode → Nibble
  | .illegal => 1
  | .malformed => 2
  | .overflow => 3
  | .unverified => 4

/-- The state with block `b` and one more response given. -/
def State.answered (s : State) (b : Block) (r : Response) : State :=
  { s with blk := b, rsps := s.rsps ++ [r] }

/-- `respond(OK, val)`: the command leaves the block as `b` (R8, R54). -/
def respond (v : Word32) (b : Block) (s : State) : Result :=
  .next (s.answered b ⟨okCode, v⟩)

/-- The first-fault rule of `ERR`: `if ERR = 0 then ERR <- F` (R14, R140). -/
def Block.noteFault (b : Block) (f : FaultCode) : Block :=
  { b with err := if b.err = okCode then f.code else b.err }

/-- Taking a fault, `raise F`: `ERR` keeps the first fault, the response is `(F, 0)`, and nothing else happens: no other
state changes, control goes nowhere (R140, R141). There is no return from it to model: "There is nothing to return from"
(R142). -/
def raise (f : FaultCode) (s : State) : Result :=
  .next (s.answered (s.blk.noteFault f) ⟨f.code, 0⟩)

/-- Reset as the second input of the machine: the constant function to the reset state of the block (R161). What the host
will present and the responses it has already received are not the block's and stay (log entry 3). -/
def applyReset (s : State) : State :=
  { s with blk := Block.reset }

end Sys2Proof.Machine
end

