-- ==== Sys2Proof/Machine/Operands.lean ====
section
/-! DEFINITION. The operand forms and result forms of the commands (spec/30_encoding.md R54, R55, spec/42_extract.md R101). -/

namespace Sys2Proof.Machine

/-- The shortest buffer a frame kind needs (R79, R133). -/
def kindMinLen : FrameKind → Nat
  | .rsp => Config.rspLen
  | .req => Config.reqLen
  | .gen => Config.codeLen

/-- The number of data bytes a frame kind covers, given `LEN` (R79): 6, 8, or all bytes but the last two. -/
def kindDataLen (k : FrameKind) (len : Nat) : Nat :=
  match k with
  | .rsp => Config.rspData
  | .req => Config.reqData
  | .gen => len - Config.codeLen

/-- `be32`: four bytes as one big-endian word, `b0*2^24 + b1*2^16 + b2*2^8 + b3` (R34, R101). -/
def be32 (b0 b1 b2 b3 : Byte) : Word32 :=
  BitVec.ofNat 32 (b0.toNat * 16777216 + b1.toNat * 65536 + b2.toNat * 256 + b3.toNat)

/-- A byte as a response value: `val[7:0]` (R54). -/
def byteVal (b : Byte) : Word32 := b.setWidth 32

/-- A 16-bit code as a response value: `val[15:0]` (R54). -/
def codeVal (c : Word16) : Word32 := c.setWidth 32

/-- A fill level as a response value (R90). -/
def lenVal (n : Nibble) : Word32 := n.setWidth 32

/-- The outcome of a verification as a response value, 1 or 0 (R54, R79). -/
def boolVal (b : Bool) : Word32 := if b then 1 else 0

end Sys2Proof.Machine
end

