-- ==== Sys2Proof/Machine/Flags.lean ====
section
/-! DEFINITION. The flag computations: the verified flag `VOK` (spec/10_state.md R13) and the status view (R16). The first-fault
register `ERR` is written by taking a fault alone: `Block.noteFault` in Ops.lean. -/

namespace Sys2Proof.Machine

/-- `VOK` after `VRFY k` with comparison result `m`: 1 only for a passing response check (R13, R79). -/
def vokAfterVerify (k : FrameKind) (m : Bool) : Bool := m && decide (k = .rsp)

/-- The status view: bits 31:16 `CRC`, 15:12 zero, 11:8 `ERR`, 7:5 zero, 4 `VOK`, 3:0 `LEN` (R16), that is
`CRC*65536 + ERR*256 + VOK*16 + LEN` (R122). -/
def statusView (b : Block) : Word32 :=
  BitVec.ofNat 32 (b.crc.toNat * 65536 + b.err.toNat * 256 + b.vok.toNat * 16 + b.len.toNat)

end Sys2Proof.Machine
end

