-- ==== Sys2Proof/Machine/Extract.lean ====
section
/-! DEFINITION. The field extractor's commands XFLD and XBYT (spec/42_extract.md R100, R106) and their common gate (R105). -/

namespace Sys2Proof.Machine

/-- The checks of every typed read, in their order: length, then verification (R105, R137). -/
def typedRead (s : State) (r : Result) : Result :=
  if s.blk.len.toNat < Config.rspLen then raise .malformed s
  else if s.blk.vok = false then raise .unverified s
  else r

/-- The data field of the response in the buffer, bytes 2..5, first byte most significant (R34, R100). -/
def dataField (m : Memory) : Word32 :=
  be32 (m.read 2) (m.read 3) (m.read 4) (m.read 5)

/-- `XFLD` (R100). -/
def execXfld (s : State) : Result :=
  typedRead s <| within Config.fldOff Config.fldLen <| respond (dataField s.blk.fb) s.blk s

/-- `XBYT i` (R106). An index above 5 is no legal word (R57; log entry 5). -/
def execXbyt (i : Nibble) (s : State) : Result :=
  if Config.payloadMax < i.toNat then raise .illegal s
  else typedRead s <| within i.toNat 1 <| respond (byteVal (s.blk.fb.read i.toNat)) s.blk s

end Sys2Proof.Machine
end

