-- ==== Sys2Proof/Machine/Frame.lean ====
section
/-! DEFINITION. The frame buffer commands PUSH, RDFB, SEAL (spec/41_frame.md R90, R92, R94) and the verification command VRFY
(spec/40_checksum.md R79). -/

namespace Sys2Proof.Machine

/-- `PUSH d` (R90): the byte lands at the old `LEN`. -/
def execPush (d : Byte) (s : State) : Result :=
  if s.blk.len = 10 then raise .overflow s
  else within s.blk.len.toNat 1 <|
    respond (lenVal (s.blk.len + 1))
      { s.blk with len := s.blk.len + 1, vok := false, fb := s.blk.fb.write s.blk.len.toNat d } s

/-- `RDFB i` (R92): the raw, ungated load. An index above 9 is no legal word (R57; log entry 5). -/
def execRdfb (i : Nibble) (s : State) : Result :=
  if Config.bufferMax < i.toNat then raise .illegal s
  else if s.blk.len.toNat ≤ i.toNat then raise .malformed s
  else within i.toNat 1 <| respond (byteVal (s.blk.fb.read i.toNat)) s.blk s

/-- `SEAL` (R94). -/
def execSeal (s : State) : Result :=
  if s.blk.len = 8 then
    within 0 Config.reqLen <|
      let r := crcBytes Config.crcInit (s.blk.fb.readBytes 0 Config.reqData)
      let c := codeOf r
      respond (codeVal c)
        { s.blk with crc := r, len := 10, vok := false, fb := s.blk.fb.writeBytes Config.reqData (codeBytes c) } s
  else raise .malformed s

/-- `VRFY k` (R79): a mismatch is an answer of 0, not a fault. -/
def execVrfy (k : FrameKind) (s : State) : Result :=
  if s.blk.len.toNat < kindMinLen k then raise .malformed s
  else
    let n := kindDataLen k s.blk.len.toNat
    within 0 (n + 2) <|
      let data := s.blk.fb.readBytes 0 n
      let m := codeMatches data (s.blk.fb.read n) (s.blk.fb.read (n + 1))
      respond (boolVal m) { s.blk with crc := crcBytes Config.crcInit data, vok := vokAfterVerify k m } s

end Sys2Proof.Machine
end

