-- ==== Sys2Proof/Machine/Stream.lean ====
section
/-! DEFINITION. The streaming commands CRCI, CRCB, CRCR and the frame checksum command CRCF (spec/40_checksum.md R75 to R78). -/

namespace Sys2Proof.Machine

/-- `CRCI` (R75). -/
def execCrci (s : State) : Result :=
  respond 0 { s.blk with crc := Config.crcInit } s

/-- `CRCB d` (R76). -/
def execCrcb (d : Byte) (s : State) : Result :=
  respond 0 { s.blk with crc := crcByte s.blk.crc d } s

/-- `CRCR` (R77): reads; the register is neither complemented in place nor re-initialised. -/
def execCrcr (s : State) : Result :=
  respond (codeVal (codeOf s.blk.crc)) s.blk s

/-- `CRCF n` (R78). A count above 10 is no legal word (R57), so the term is `ILLEGAL` (log entry 5). -/
def execCrcf (n : Nibble) (s : State) : Result :=
  if Config.countMax < n.toNat then raise .illegal s
  else if s.blk.len.toNat < n.toNat then raise .malformed s
  else within 0 n.toNat <|
    let r := crcBytes Config.crcInit (s.blk.fb.readBytes 0 n.toNat)
    respond (codeVal (codeOf r)) { s.blk with crc := r } s

end Sys2Proof.Machine
end

