-- ==== Sys2Proof/Machine/System.lean ====
section
/-! DEFINITION. The system commands CLR and STAT (spec/43_system.md R120, R122). -/

namespace Sys2Proof.Machine

/-- `CLR` (R120): every item of state at its reset value. -/
def execClr (s : State) : Result :=
  respond 0 { s.blk with crc := Config.crcInit, len := 0, vok := false, err := okCode, fb := Memory.cleared } s

/-- `STAT` (R122): reading clears nothing. -/
def execStat (s : State) : Result :=
  respond (statusView s.blk) s.blk s

end Sys2Proof.Machine
end

