-- ==== Sys2Proof/Machine/Dispatch.lean ====
section
/-! DEFINITION. One arm per command: the meaning of a decoded instruction (spec/30_encoding.md R51, R58). -/

namespace Sys2Proof.Machine

/-- The meaning of an instruction on a state. -/
def exec (i : Instr) (s : State) : Host.Outcome State Fault Refusal :=
  match i with
  | .clr => Sys2Proof.Machine.execClr s
  | .push d => Sys2Proof.Machine.execPush d s
  | .crci => Sys2Proof.Machine.execCrci s
  | .crcb d => Sys2Proof.Machine.execCrcb d s
  | .crcr => Sys2Proof.Machine.execCrcr s
  | .crcf n => Sys2Proof.Machine.execCrcf n s
  | .sealReq => Sys2Proof.Machine.execSeal s
  | .vrfy k => Sys2Proof.Machine.execVrfy k s
  | .xfld => Sys2Proof.Machine.execXfld s
  | .xbyt j => Sys2Proof.Machine.execXbyt j s
  | .rdfb j => Sys2Proof.Machine.execRdfb j s
  | .stat => Sys2Proof.Machine.execStat s

end Sys2Proof.Machine
end

