-- ==== Sys2Proof/Machine/Accept.lean ====
section
/-! DEFINITION. Accepting a command word: decode, then the command's rule or the fault ILLEGAL (spec/30_encoding.md R51, R57, R58). -/

namespace Sys2Proof.Machine

/-- `exec(s, w)` of R58, on the model's state: "`raise ILLEGAL` when `decode(w)` is `ILLEGAL`, and otherwise the rule of the
decoded command". -/
def execWord (w : Word16) (s : State) : Result :=
  match decode w with
  | .command i => exec i s
  | .illegal _ => raise .illegal s

/-- R51's function from (state, word) to (state, response), on the block alone. Every next state of `execWord` adds exactly
one response, so the default below is never read. -/
def answer (b : Block) (w : Word16) : Host.Outcome (Block × Response) Fault Refusal :=
  match execWord w ⟨b, [], []⟩ with
  | .next t => .next (t.blk, t.rsps.headD ⟨okCode, 0⟩)
  | .fault e => .fault e
  | .refused e => .refused e

end Sys2Proof.Machine
end

