-- ==== Sys2Proof/Machine/Step.lean ====
section
/-! DEFINITION. One step of the machine: the block takes the next thing its host presents (spec/20_memory.md R40, R43, spec/30_encoding.md
R51, spec/70_reset_and_hazards.md R161). -/

namespace Sys2Proof.Machine

/-- One step. A command word is accepted and executed to its end (R51); a reset edge gives the reset state (R161); with
nothing presented the block stays as it is, since "Nothing happens in the block except in response to a command or reset"
(R143; log entry 2). -/
def step (s : State) : Host.Outcome State Fault Refusal :=
  match s.inputs with
  | [] => .next s
  | .command w :: rest => execWord w { s with inputs := rest }
  | .reset :: rest => .next (applyReset { s with inputs := rest })

/-- The state with the word presented ahead of everything else, so that the very next step accepts it: the command port is
where the block takes its next command from (R18, R42; log entries 2 and 16). -/
def State.withFetchWord (s : State) (nbits w : Nat) : State :=
  { s with inputs := .command (BitVec.ofNat 16 (w % 2 ^ nbits)) :: s.inputs }

end Sys2Proof.Machine
end

