-- ==== Sys2Proof/Machine/Assembler.lean ====
section
/-! DEFINITION. The assembler syntax of spec/30_encoding.md R60: one line of characters to one command. Lexical details R60 does not
give are log entry 13. -/

namespace Sys2Proof.Machine

/-- What one line of assembler text is. -/
inductive AsmLine where
  /-- Nothing but blanks and a comment. -/
  | blank
  | command (i : Instr)
  | error
deriving DecidableEq, Repr

/-- Characters that separate a mnemonic from its operand (log entry 13). -/
def isBlank (c : Char) : Bool := c == ' ' || c == '\t'

/-- The text before a comment: "A `;` starts a comment" (R60). -/
def stripComment (cs : List Char) : List Char := cs.takeWhile (· != ';')

/-- A finished token in front of the others, if it has a character. -/
def pushToken (cur : List Char) (rest : List (List Char)) : List (List Char) :=
  if cur.isEmpty then rest else cur.reverse :: rest

/-- The tokens of a text, `cur` being the one being read, last character first. -/
def tokens (cur : List Char) : List Char → List (List Char)
  | [] => pushToken cur []
  | c :: cs => if isBlank c then pushToken cur (tokens [] cs) else tokens (c :: cur) cs

/-- The value of a digit in a base up to 16, in either letter case. -/
def digitVal (base : Nat) (c : Char) : Option Nat :=
  let v :=
    if '0' ≤ c ∧ c ≤ '9' then c.toNat - '0'.toNat
    else if 'A' ≤ c ∧ c ≤ 'F' then c.toNat - 'A'.toNat + 10
    else if 'a' ≤ c ∧ c ≤ 'f' then c.toNat - 'a'.toNat + 10
    else base
  if v < base then some v else none

/-- The value of digits read after the value `acc`. -/
def digitsVal (base acc : Nat) : List Char → Option Nat
  | [] => some acc
  | c :: cs =>
    match digitVal base c with
    | some v => digitsVal base (acc * base + v) cs
    | none => none

/-- "a decimal number or a hexadecimal number with `0x`" (R60). -/
def numberVal : List Char → Option Nat
  | [] => none
  | ['0', 'x'] => none
  | '0' :: 'x' :: cs => digitsVal 16 0 cs
  | cs => digitsVal 10 0 cs

/-- An operand below a bound, at the width of its field. -/
def operand (w bound : Nat) (cs : List Char) : Option (BitVec w) :=
  match numberVal cs with
  | some v => if v < bound then some (BitVec.ofNat w v) else none
  | none => none

/-- The operand of `VRFY`: a number 0..2 or the name `RSP`, `REQ`, `GEN` (R60). -/
def kindOperand (cs : List Char) : Option FrameKind :=
  if cs = "RSP".toList then some .rsp
  else if cs = "REQ".toList then some .req
  else if cs = "GEN".toList then some .gen
  else match numberVal cs with
    | some 0 => some .rsp
    | some 1 => some .req
    | some 2 => some .gen
    | _ => none

/-- A command or an error. -/
def AsmLine.ofOption : Option Instr → AsmLine
  | some i => .command i
  | none => .error

/-- A command without an operand (R56, R60). -/
def assembleNone (m : List Char) : Option Instr :=
  if m = "CLR".toList then some .clr
  else if m = "CRCI".toList then some .crci
  else if m = "CRCR".toList then some .crcr
  else if m = "SEAL".toList then some .sealReq
  else if m = "XFLD".toList then some .xfld
  else if m = "STAT".toList then some .stat
  else none

/-- A command with one operand (R56, R60). -/
def assembleOne (m o : List Char) : Option Instr :=
  if m = "PUSH".toList then (operand 8 256 o).map .push
  else if m = "CRCB".toList then (operand 8 256 o).map .crcb
  else if m = "CRCF".toList then (operand 4 (Config.countMax + 1) o).map .crcf
  else if m = "VRFY".toList then (kindOperand o).map .vrfy
  else if m = "XBYT".toList then (operand 4 (Config.payloadMax + 1) o).map .xbyt
  else if m = "RDFB".toList then (operand 4 (Config.bufferMax + 1) o).map .rdfb
  else none

/-- One line of assembler text (R60). -/
def assembleLine (line : List Char) : AsmLine :=
  match tokens [] (stripComment line) with
  | [] => .blank
  | [m] => AsmLine.ofOption (assembleNone m)
  | [m, o] => AsmLine.ofOption (assembleOne m o)
  | _ => .error

/-- The word of a line, if it holds a command: "The encoding of a line" (R60). -/
def assembleWord (line : List Char) : Option Word16 :=
  match assembleLine line with
  | .command i => some (encode i)
  | .blank => none
  | .error => none

end Sys2Proof.Machine
end

