-- ==== Sys2Proof/Machine/Ports.lean ====
section
/-! DEFINITION. The ports that carry the commands (spec/30_encoding.md R50, R52, spec/70_reset_and_hazards.md R161), one rising edge of
`clk` at a time. No rule of the spec depends on them (R51); `LAT` is an argument (spec/00_scope.md R5). -/

namespace Sys2Proof.Machine

/-- The input ports as sampled at one rising edge of `clk` (R50). -/
structure PortIn where
  rst : Bool
  cmdValid : Bool
  cmd : Word16
deriving DecidableEq, Repr

/-- The output ports as they stand at one rising edge of `clk` (R50). -/
structure PortOut where
  cmdReady : Bool
  rspValid : Bool
  rspSt : Nibble
  rspVal : Word32
deriving DecidableEq, Repr

/-- Where the handshake stands between two edges (R52, R161). -/
inductive Phase where
  /-- Ready for a command word (R52 (a)). -/
  | idle
  /-- A command is accepted and its response is due after this many more edges; at 0 the response is on the ports
  (R52 (c), (d)). -/
  | busy (left : Nat) (r : Response)
  /-- The last edge had `rst = 1` (R161). -/
  | inReset
deriving DecidableEq, Repr

/-- The block behind its ports. -/
structure PortState where
  blk : Block
  phase : Phase
  /-- Edges seen so far; indexes the free values of Config (log entry 10). The model's own field. -/
  edges : Nat
deriving DecidableEq, Repr

/-- The ports right after a reset edge (R161). -/
def PortState.reset : PortState where
  blk := Block.reset
  phase := .inReset
  edges := 0

/-- `cmd_ready`: 1 when idle, 0 while busy, 0 while reset stays asserted after a reset edge (R52 (a), (c), R161; log entry 9). -/
def PortState.ready (p : PortState) (rst : Bool) : Bool :=
  match p.phase with
  | .idle => true
  | .busy _ _ => false
  | .inReset => !rst

/-- The response on the ports, in the one cycle in which `rsp_valid` is 1 (R52 (d)). -/
def PortState.responding (p : PortState) : Option Response :=
  match p.phase with
  | .busy 0 r => some r
  | .busy (_ + 1) _ => none
  | .idle => none
  | .inReset => none

/-- The response accepted but not yet past its cycle on the ports. -/
def PortState.pending (p : PortState) : List Response :=
  match p.phase with
  | .busy _ r => [r]
  | .idle => []
  | .inReset => []

/-- The output ports (R50, R52). While `rsp_valid` is 0 the other two are unspecified (R52 (g)): free values of Config. -/
def PortState.out (p : PortState) (rst : Bool) : PortOut where
  cmdReady := p.ready rst
  rspValid := p.responding.isSome
  rspSt := (p.responding.map Response.st).getD (Config.idleRspSt p.edges)
  rspVal := (p.responding.map Response.val).getD (Config.idleRspVal p.edges)

/-- A word is accepted on an edge where `rst = 0`, `cmd_valid = 1` and `cmd_ready = 1` (R52 (b)); on an edge with `rst = 1`
none is (R161). -/
def PortState.accepts (p : PortState) (i : PortIn) : Bool :=
  !i.rst && i.cmdValid && p.ready i.rst

/-- The handshake after an edge that accepts nothing and resets nothing (R52 (c), (d), (e), (h)). -/
def Phase.advance : Phase → Phase
  | .idle => .idle
  | .busy 0 _ => .idle
  | .busy (k + 1) r => .busy k r
  | .inReset => .idle

/-- One rising edge of `clk`, for a latency `lat` of edge number and word (R5: `LAT >= 1`, may differ per command; 93 U4;
log entry 8). An accepted word is executed at this edge (R52 (b), R51). -/
def clockEdge (lat : Nat → Word16 → Nat) (p : PortState) (i : PortIn) : Host.Outcome PortState Fault Refusal :=
  if i.rst then .next ⟨Block.reset, .inReset, p.edges + 1⟩
  else if p.accepts i then
    match answer p.blk i.cmd with
    | .next (b, r) => .next ⟨b, .busy (lat p.edges i.cmd - 1) r, p.edges + 1⟩
    | .fault e => .fault e
    | .refused e => .refused e
  else .next ⟨p.blk, p.phase.advance, p.edges + 1⟩

/-- What an edge presents to the block: a reset, an accepted command word, or nothing (R51, R161). -/
def PortState.event (p : PortState) (i : PortIn) : List HostInput :=
  if i.rst then [.reset] else if p.accepts i then [.command i.cmd] else []

/-- What happened over a run of edges. -/
structure PortTrace where
  /-- The block and its ports after the last edge. -/
  last : PortState
  /-- Resets and accepted words, in order. -/
  events : List HostInput
  /-- The responses on the ports with `rsp_valid = 1`, one for each edge at which it was 1, in order. -/
  delivered : List Response
deriving DecidableEq, Repr

/-- A run of clock edges. -/
def clockRun (lat : Nat → Word16 → Nat) : PortState → List PortIn → Host.Outcome PortTrace Fault Refusal
  | p, [] => .next ⟨p, [], []⟩
  | p, i :: is =>
    match clockEdge lat p i with
    | .next q =>
      match clockRun lat q is with
      | .next tr => .next ⟨tr.last, p.event i ++ tr.events, p.responding.toList ++ tr.delivered⟩
      | .fault e => .fault e
      | .refused e => .refused e
    | .fault e => .fault e
    | .refused e => .refused e

end Sys2Proof.Machine
end

