-- ==== Sys2Proof/Machine/Pseudo.lean ====
section
/-! DEFINITION. The pseudo-commands of spec/30_encoding.md R61 as the command sequences they stand for, and running a sequence
of commands. -/

namespace Sys2Proof.Machine

/-- The pseudo-commands (R61). -/
inductive Pseudo where
  /-- `LOAD b0 ... bk` (k <= 9): hand over a frame. -/
  | load (bs : List Byte)
  /-- `COMPUTE b0 ... bk` (any k; none for the empty sequence): `compute(bytes)`. -/
  | compute (bs : List Byte)
  /-- `SEALREQ b0 ... b7`: the tail of `encode`. -/
  | sealreq (bs : List Byte)
  /-- `CHECKRSP b0 ... b7`: `verify(frame)` on a response. -/
  | checkrsp (bs : List Byte)
  /-- `READOUT n` (n <= 10): transmit a sealed request. -/
  | readout (n : Nat)
  /-- `ASCII6`: the identity reads' decode. -/
  | ascii6
deriving DecidableEq, Repr

/-- The operand counts R61 allows (log entry 14). -/
def Pseudo.wf : Pseudo → Bool
  | .load bs => decide (1 ≤ bs.length) && decide (bs.length ≤ 10)
  | .compute _ => true
  | .sealreq bs => decide (bs.length = 8)
  | .checkrsp bs => decide (bs.length = 8)
  | .readout n => decide (n ≤ 10)
  | .ascii6 => true

/-- `CLR` and one `PUSH` per byte: the expansion of `LOAD`. -/
def loadSeq (bs : List Byte) : List Instr := .clr :: bs.map .push

/-- The sequence of commands each pseudo-command stands for (R61). -/
def Pseudo.expand : Pseudo → List Instr
  | .load bs => loadSeq bs
  | .compute bs => .crci :: bs.map .crcb ++ [.crcr]
  | .sealreq bs => loadSeq bs ++ [.sealReq]
  | .checkrsp bs => loadSeq bs ++ [.vrfy .rsp]
  | .readout n => (List.range n).map fun i => .rdfb (BitVec.ofNat 4 i)
  | .ascii6 => [.xbyt 0, .xbyt 1, .xbyt 2, .xbyt 3, .xbyt 4, .xbyt 5]

/-- A sequence of commands run in order, stopping where one stops (R40). -/
def execSeq : List Instr → State → Result
  | [], s => .next s
  | i :: is, s =>
    match exec i s with
    | .next t => execSeq is t
    | .fault e => .fault e
    | .refused e => .refused e

end Sys2Proof.Machine
end

