-- ==== Sys2Proof/Machine/Views.lean ====
section
/-! DEFINITION. The frame layouts (spec/20_memory.md R31, R32) and the readings a host makes of the block's answers (spec/42_extract.md
R102 to R104, R107, R108, R110). No command depends on them. -/

namespace Sys2Proof.Machine

/-- A response frame in the buffer, by DOC00's names (R31). -/
structure ResponseFrame where
  transmissionState : Byte
  secondaryState : Byte
  b0 : Byte
  b1 : Byte
  b2 : Byte
  b3 : Byte
  codeLow : Byte
  codeHigh : Byte
deriving DecidableEq, Repr

/-- The buffer read as a response frame (R31). -/
def responseFrame (m : Memory) : ResponseFrame :=
  ⟨m.read 0, m.read 1, m.read 2, m.read 3, m.read 4, m.read 5, m.read 6, m.read 7⟩

/-- A request frame in the buffer, by DOC00's names (R32). -/
structure RequestFrame where
  address : Byte
  command : Byte
  params : List Byte
  codeLow : Byte
  codeHigh : Byte
deriving DecidableEq, Repr

/-- The buffer read as a request frame (R32). -/
def requestFrame (m : Memory) : RequestFrame :=
  ⟨m.read 0, m.read 1, m.readBytes 2 6, m.read 8, m.read 9⟩

/-- The unsigned-integer view of an `XFLD` value (R102). -/
def unsignedView (v : Word32) : Nat := v.toNat

/-- A binary32 pattern as R104 reads it. A finite value is `(-1)^neg * mant * 2^exp`, exactly; the sign of zero is kept
(log entry 15: R104 is general knowledge, not DOC00's). -/
inductive Binary32 where
  | finite (neg : Bool) (mant : Nat) (exp : Int)
  | infinite (neg : Bool)
  | nan
deriving DecidableEq, Repr

/-- The float view of an `XFLD` value: the layout of R104, read on the pattern `XFLD` returns (R103). -/
def floatView (w : Word32) : Binary32 :=
  let neg := w.getLsbD 31
  let e := (w.extractLsb' 23 8).toNat
  let m := (w.extractLsb' 0 23).toNat
  if e = 255 then (if m = 0 then .infinite neg else .nan)
  else if e = 0 then .finite neg m (-149)
  else .finite neg (m + 2 ^ 23) ((e : Int) - 150)

/-- The four alarm bytes, data bytes 2..5 in order (R108). -/
def alarmBytes (m : Memory) : List Byte := m.readBytes 2 4

/-- The six bytes of an identity read, bytes 0..5, first character first (R110). -/
def identityBytes (m : Memory) : List Byte := m.readBytes 0 6

/-- A byte 0x00..0x7F is the ASCII character with that code (R110, general knowledge; log entry 15); what any other byte decodes to is not
said. -/
def asciiChar (b : Byte) : Option Char :=
  if b.toNat < 128 then some (Char.ofNat b.toNat) else none

end Sys2Proof.Machine
end

