-- ==== Sys2Proof/Safety.lean ====
section
/-! DEFINITION. What holds of every state a run reaches (spec/10_state.md R17) and what counts as a safe run. -/

namespace Sys2Proof.Machine

/-- The invariants of R17, with the canonical form of the buffer (log entry 6). -/
structure Block.Inv (b : Block) : Prop where
  /-- R17, 1: `0 <= LEN <= 10`. -/
  lenBound : b.len.toNat ≤ 10
  /-- R17, 2: `0 <= ERR <= 4`. -/
  errBound : b.err.toNat ≤ 4
  /-- R17, 3: `VOK = 1` implies `LEN >= 8` and `FB[6..7]` is the code of `FB[0..5]`, low byte first. -/
  verified : b.vok = true →
    8 ≤ b.len.toNat ∧ [b.fb.read 6, b.fb.read 7] = codeBytes (compute (b.fb.readBytes 0 6))
  /-- R17, 4: `FB[i] = 0x00` for every `i >= LEN`. -/
  zeroAbove : ∀ i < 10, b.len.toNat ≤ i → b.fb.read i = 0
  /-- The buffer is in its canonical form. -/
  canonical : b.fb.wf = true

/-- The invariant of the machine: that of its block. -/
def State.Inv (s : State) : Prop := s.blk.Inv

/-- A run of `k` steps that ends in a next state: no fault and no refusal of the model. -/
def State.SafeFor (k : Nat) (s : State) : Prop :=
  ∃ t, (Host.Core.run ⟨State, Fault, Refusal, step, State.reset⟩ k s) = .next t

end Sys2Proof.Machine
end

