-- ==== Sys2Proof/Certificates/Slice0/Obligations.lean ====
section
/-! DEFINITION. The statements about CKFX16, each from the rules of spec/ its docstring names. -/

namespace Sys2Proof.Claims

open Sys2Proof Sys2Proof.Machine

/-- The state after a command that responds `(OK, v)` and leaves the block as `b` (R8, R54). The list of responses is the
model's own way to give one (log entry 1). -/
def okState (s : State) (b : Block) (v : Word32) : State :=
  { blk := b, inputs := s.inputs, rsps := s.rsps ++ [⟨0, v⟩] }

/-- The state after the fault of code `f`: "`if ERR = 0 then ERR <- F; respond(F, 0x00000000)` and nothing else" (R140). -/
def faultState (s : State) (f : Nibble) : State :=
  { blk := { s.blk with err := if s.blk.err = 0 then f else s.blk.err }, inputs := s.inputs, rsps := s.rsps ++ [⟨f, 0⟩] }

/-- The bytes `FB[0..n-1]`. -/
def firstBytes (b : Block) (n : Nat) : List Byte := (List.range n).map b.fb.read

/-- `FB[n]`, `FB[n+1]` are the code of `FB[0..n-1]`, low byte first (R80). -/
def frameGood (b : Block) (n : Nat) : Bool := [b.fb.read n, b.fb.read (n + 1)] == codeBytes (compute (firstBytes b n))

/-- The buffer holds fewer bytes than the command needs (for `SEAL`: not exactly 8): the table of R133. -/
def tooShort (i : Instr) (len : Nat) : Prop :=
  match i with
  | .clr => False
  | .push _ => False
  | .crci => False
  | .crcb _ => False
  | .crcr => False
  | .crcf n => len < n.toNat
  | .sealReq => len ≠ 8
  | .vrfy .rsp => len < 8
  | .vrfy .req => len < 10
  | .vrfy .gen => len < 2
  | .xfld => len < 8
  | .xbyt _ => len < 8
  | .rdfb i => len ≤ i.toNat
  | .stat => False

/-- The words of one opcode, other than those listed by `legal`, are illegal: each faults `ILLEGAL` in every state (R57, R132). -/
def otherWordsIllegal (op : Nat) (legal : Word16 → Prop) : Prop :=
  ∀ w : Word16, w.toNat / 4096 = op → ¬ legal w → ∀ s, execWord w s = .next (faultState s 1)

end Sys2Proof.Claims

open Sys2Proof Sys2Proof.Machine Sys2Proof.Claims

/-! ### Encoding -/

/-- Decoding the word of a well-formed instruction gives the instruction back, for every instruction and every operand
(R56, R58). -/
def Obligations.DecodeEncodeRoundTrip : Prop :=
  ∀ i : Instr, i.wf = true → decode (encode i) = .command i

/-- Encoding what a word decodes to gives the word back, and it is well formed: no two words decode to the same command
with the same operand ("Decoding is injective on legal words", R58). -/
def Obligations.EncodeDecodeRoundTrip : Prop :=
  ∀ (w : Word16) (i : Instr), decode w = .command i → i.wf = true ∧ encode i = w

/-- A word is illegal exactly when R57 says so, read from the word as the number `op*4096 + a*256 + d`; an illegal word
faults `ILLEGAL` in every state. -/
def Obligations.IllegalWordsAreExactlyRule57 : Prop :=
  (∀ w : Word16, (∃ why, decode w = .illegal why) ↔
    let op := w.toNat / 4096
    let a := w.toNat / 256 % 16
    let d := w.toNat % 256
    12 ≤ op ∨
    ((op = 1 ∨ op = 3) ∧ a ≠ 0) ∨
    ((op = 5 ∨ op = 7 ∨ op = 9 ∨ op = 10) ∧ d ≠ 0) ∨
    ((op = 0 ∨ op = 2 ∨ op = 4 ∨ op = 6 ∨ op = 8 ∨ op = 11) ∧ (a ≠ 0 ∨ d ≠ 0)) ∨
    (op = 5 ∧ 11 ≤ a) ∨ (op = 7 ∧ 3 ≤ a) ∨ (op = 9 ∧ 6 ≤ a) ∨ (op = 10 ∧ 10 ≤ a)) ∧
  (∀ (w : Word16) (why : Illegal) (s : State), decode w = .illegal why → execWord w s = .next (faultState s 1))

/-- The decoder and the match/mask table of R56 agree: a word that decodes to a command selects that command's row, a word
that selects a row decodes to a command of that row, and no word selects two rows. -/
def Obligations.DecoderAgreesWithOpcodeTable : Prop :=
  opcodeTable.length = 12 ∧
  (∀ (w : Word16) (i : Instr), decode w = .command i → i.row ∈ opcodeTable ∧ i.row.selects w = true) ∧
  (∀ (w : Word16) (r : OpcodeRow), r ∈ opcodeTable → r.selects w = true → ∃ i, decode w = .command i ∧ i.row = r) ∧
  (∀ (w : Word16) (r r' : OpcodeRow), r ∈ opcodeTable → r' ∈ opcodeTable → r.selects w = true → r'.selects w = true → r = r')

/-- "548 of them are legal and the other 64988 fault `ILLEGAL`" (R51): the legal words are the members of a list of 548
different words. -/
def Obligations.LegalWordsNumber548 : Prop :=
  ∃ l : List Word16, l.Nodup ∧ l.length = 548 ∧
    (∀ w : Word16, w ∈ l ↔ ∃ i, decode w = .command i) ∧
    ∀ w : Word16, w ∉ l → ∀ s : State, execWord w s = .next (faultState s 1)

/-- One word of every row, written out from R56, decodes to the command it stands for; illegal neighbours do not. -/
def Obligations.SampleWordsDecode : Prop :=
  decode 0x0000 = .command .clr ∧ decode 0x103B = .command (.push 0x3B) ∧ decode 0x2000 = .command .crci ∧
  decode 0x303B = .command (.crcb 0x3B) ∧ decode 0x4000 = .command .crcr ∧ decode 0x5A00 = .command (.crcf 10) ∧
  decode 0x6000 = .command .sealReq ∧ decode 0x7100 = .command (.vrfy .req) ∧ decode 0x8000 = .command .xfld ∧
  decode 0x9500 = .command (.xbyt 5) ∧ decode 0xA900 = .command (.rdfb 9) ∧ decode 0xB000 = .command .stat ∧
  decode 0x5B00 = .illegal .operandRange ∧ decode 0x1100 = .illegal .unusedField ∧ decode 0xC000 = .illegal .reservedOpcode

/-! ### The checksum as pure functions -/

/-- R70, bit by bit: with `f = r[0] xor b`, bits 15, 10 and 3 of the result take the feedback, every other bit is the bit
above it; and the worked example. -/
def Obligations.CrcBitInBits : Prop :=
  (∀ (r : Word16) (b : Bool),
    crcBit r b = (if (r.getLsbD 0 ^^ b) = true then (r >>> 1) ^^^ 0x8408#16 else r >>> 1) ∧
    (crcBit r b).getLsbD 15 = (r.getLsbD 0 ^^ b) ∧
    (crcBit r b).getLsbD 10 = (r.getLsbD 11 ^^ (r.getLsbD 0 ^^ b)) ∧
    (crcBit r b).getLsbD 3 = (r.getLsbD 4 ^^ (r.getLsbD 0 ^^ b)) ∧
    ∀ i < 15, i ≠ 10 → i ≠ 3 → (crcBit r b).getLsbD i = r.getLsbD (i + 1)) ∧
  crcBit 0xFFFF false = 0xFBF7

/-- R71: a byte is eight iterations, bit 0 first; the equal formulation that XORs the byte into the low bits first gives the
same register for every pair; and the worked example, register by register. -/
def Obligations.CrcByteTwoFormulations : Prop :=
  (∀ (r : Word16) (d : Byte),
    crcByte r d = Nat.fold 8 (fun i _ q => crcBit q (d.getLsbD i)) r ∧
    crcByte r d =
      Nat.fold 8 (fun _ _ (x : Word16) => if x.getLsbD 0 = true then (x >>> 1) ^^^ 0x8408#16 else x >>> 1) (r ^^^ d.setWidth 16)) ∧
  (List.range 8).map (fun k => Nat.fold (k + 1) (fun i _ q => crcBit q ((0x02 : Byte).getLsbD i)) (0xFFFF : Word16)) =
    [0xFBF7, 0x7DFB, 0xBAF5, 0xD972, 0x6CB9, 0xB254, 0x592A, 0x2C95] ∧
  crcByte 0xFFFF 0x02 = 0x2C95

/-- R72: the register starts at 0xFFFF and absorbs the bytes in order; absorbing a concatenation; the empty sequence has
code 0x0000, bytes `00 00`. -/
def Obligations.CrcOfSequences : Prop :=
  (∀ s : List Byte, compute s = codeOf (crcBytes 0xFFFF s)) ∧
  (∀ (r : Word16) (s t : List Byte), crcBytes r (s ++ t) = crcBytes (crcBytes r s) t) ∧
  (∀ r : Word16, crcBytes r [] = r) ∧
  (∀ (r : Word16) (d : Byte), crcBytes r [d] = crcByte r d) ∧
  compute [] = 0x0000 ∧ codeBytes (compute []) = [0x00, 0x00]

/-- R73: the code is the complement of the final register, emitted low byte first; and the worked example. -/
def Obligations.CodeIsComplementLowByteFirst : Prop :=
  (∀ r : Word16, codeOf r = r ^^^ 0xFFFF#16 ∧ codeOf r = ~~~r) ∧
  (∀ c : Word16, (codeBytes c).map BitVec.toNat = [c.toNat % 256, c.toNat / 256]) ∧
  crcBytes 0xFFFF [0x02, 0x3B, 0x03, 0, 0, 0, 0, 0] = 0xDB56 ∧
  compute [0x02, 0x3B, 0x03, 0, 0, 0, 0, 0] = 0x24A9 ∧
  codeBytes (compute [0x02, 0x3B, 0x03, 0, 0, 0, 0, 0]) = [0xA9, 0x24]

/-- R74 law 4: each update is a bijection of the register; a bit's update is undone as the law says. -/
def Obligations.CrcUpdatesAreBijections : Prop :=
  (∀ (r : Word16) (b : Bool),
    let q := crcBit r b
    let f := q.getLsbD 15
    let r1 := if f = true then q ^^^ 0x8408#16 else q
    r = (r1 <<< 1) ||| (BitVec.ofBool (f ^^ b)).setWidth 16) ∧
  (∀ d : Byte, Function.Bijective fun r => crcByte r d) ∧
  (∀ s : List Byte, Function.Bijective fun r => crcBytes r s)

/-- R74 law 5: for every byte sequence, the sequence followed by its code bytes verifies. -/
def Obligations.VerifyRoundTrip : Prop :=
  ∀ (s : List Byte) (h : s.length + 2 ≤ (s ++ codeBytes (compute s)).length),
    verify (s ++ codeBytes (compute s)) s.length h = true

/-- R74 law 6: flipping any single bit of the data changes the code, so the frame fails to verify; a frame with one bit of
its code bytes flipped fails too. -/
def Obligations.SingleBitErrorsAreDetected : Prop :=
  (∀ (pre post : List Byte) (d : Byte) (j : Nat), j < 8 →
    compute (pre ++ (d ^^^ (1#8 <<< j)) :: post) ≠ compute (pre ++ d :: post)) ∧
  (∀ (pre post : List Byte) (d : Byte) (j : Nat), j < 8 →
    ∀ h, verify ((pre ++ (d ^^^ (1#8 <<< j)) :: post) ++ codeBytes (compute (pre ++ d :: post)))
      (pre.length + 1 + post.length) h = false) ∧
  (∀ (s : List Byte) (j : Nat), j < 16 →
    ∀ h, verify (s ++ codeBytes (compute s ^^^ (1#16 <<< j))) s.length h = false)

/-- R74 law 7 (general knowledge in the spec, 93 G3): absorbing a sequence and then its own code bytes leaves 0xF0B8, whose
code is 0x0F47. -/
def Obligations.ResidueIsConstant : Prop :=
  ∀ s : List Byte, crcBytes 0xFFFF (s ++ codeBytes (compute s)) = 0xF0B8 ∧ codeOf 0xF0B8 = 0x0F47

/-- R80: `verify` compares the two bytes at `n`, `n+1` with the code of the first `n` bytes, and looks at no later byte. -/
def Obligations.VerifyComparesCodeAtN : Prop :=
  (∀ (frame : List Byte) (n : Nat) (h : n + 2 ≤ frame.length),
    verify frame n h = true ↔
      frame[n] = lo (compute (frame.take n)) ∧ frame[n + 1] = hi (compute (frame.take n))) ∧
  (∀ (frame more : List Byte) (n : Nat) (h : n + 2 ≤ frame.length) (h' : n + 2 ≤ (frame ++ more).length),
    verify (frame ++ more) n h' = verify frame n h)

/-- R101: `be32` is the sum of its four terms, which fits 32 bits; its bytes are its operands; it is a bijection between
four-byte sequences and words. -/
def Obligations.Be32Arithmetic : Prop :=
  (∀ b0 b1 b2 b3 : Byte,
    (be32 b0 b1 b2 b3).toNat = b0.toNat * 16777216 + b1.toNat * 65536 + b2.toNat * 256 + b3.toNat ∧
    be32 b0 b1 b2 b3 =
      (b0.setWidth 32 <<< 24) ||| (b1.setWidth 32 <<< 16) ||| (b2.setWidth 32 <<< 8) ||| b3.setWidth 32) ∧
  Function.Bijective fun p : Byte × Byte × Byte × Byte => be32 p.1 p.2.1 p.2.2.1 p.2.2.2

/-! ### The streaming commands -/

/-- R75, whole: `CRCI`. -/
def Obligations.CrciInitialisesRegister : Prop :=
  decode 0x2000 = .command .crci ∧
  otherWordsIllegal 2 (· = 0x2000) ∧
  (∀ s : State, exec .crci s = .next (okState s { s.blk with crc := 0xFFFF } 0)) ∧
  (∀ s : State, s.blk.crc = 0xFFFF → exec .crci s = .next (okState s s.blk 0)) ∧
  (State.reset.blk.crc = 0xFFFF ∧ ∀ s t : State, exec .clr s = .next t → t.blk.crc = 0xFFFF) ∧
  (∀ s : State, ∃ t, exec .crci s = .next t ∧ exec .crcr t = .next (okState t t.blk 0))

/-- R76, whole: `CRCB`. -/
def Obligations.CrcbAbsorbsOneByte : Prop :=
  (∀ d : Byte, decode (0x3000#16 + d.setWidth 16) = .command (.crcb d)) ∧
  otherWordsIllegal 3 (fun w => ∃ d : Byte, w = 0x3000#16 + d.setWidth 16) ∧
  (∀ (d : Byte) (s : State), exec (.crcb d) s = .next (okState s { s.blk with crc := crcByte s.blk.crc d } 0)) ∧
  crcByte 0xFFFF 0x00 = 0x0F87 ∧ crcByte 0x0000 0x00 = 0x0000 ∧
  crcByte 0xFFFF 0x02 = 0x2C95 ∧ crcByte 0x2C95 0x3B = 0x4C58

/-- R77, whole: `CRCR`. -/
def Obligations.CrcrReadsCode : Prop :=
  decode 0x4000 = .command .crcr ∧
  otherWordsIllegal 4 (· = 0x4000) ∧
  (∀ s : State, ∃ v : Word32, exec .crcr s = .next (okState s s.blk v) ∧
    v.extractLsb' 0 16 = s.blk.crc ^^^ 0xFFFF#16 ∧ v.extractLsb' 16 16 = 0#16 ∧
    [v.extractLsb' 0 8, v.extractLsb' 8 8] = codeBytes (codeOf s.blk.crc)) ∧
  (∀ s : State, s.blk.crc = 0xFFFF → exec .crcr s = .next (okState s s.blk 0)) ∧
  (∀ (n : Nibble) (s t : State) (v : Word32), exec (.crcf n) s = .next t → t.rsps = s.rsps ++ [⟨0, v⟩] →
    exec .crcr t = .next (okState t t.blk v)) ∧
  (∀ (s t : State) (v : Word32), exec .sealReq s = .next t → t.rsps = s.rsps ++ [⟨0, v⟩] →
    exec .crcr t = .next (okState t t.blk v)) ∧
  (∀ (k : FrameKind) (s t : State) (v : Word32), exec (.vrfy k) s = .next t → t.rsps = s.rsps ++ [⟨0, v⟩] →
    exec .crcr t = .next (okState t t.blk
      ((compute (firstBytes s.blk (match k with | .rsp => 6 | .req => 8 | .gen => s.blk.len.toNat - 2))).setWidth 32))) ∧
  (∀ s : State, s.blk.crc = 0x6F91 → exec .crcr s = .next (okState s s.blk 0x906E))

/-- R78, whole: `CRCF`. -/
def Obligations.CrcfComputesCodeOfPrefix : Prop :=
  (∀ n : Nibble, n.toNat ≤ 10 → decode (0x5000#16 + n.setWidth 16 * 256) = .command (.crcf n)) ∧
  otherWordsIllegal 5 (fun w => ∃ n : Nibble, n.toNat ≤ 10 ∧ w = 0x5000#16 + n.setWidth 16 * 256) ∧
  (∀ (n : Nibble) (s : State), n.toNat ≤ 10 → s.blk.len.toNat < n.toNat →
    exec (.crcf n) s = .next (faultState s 2)) ∧
  (∀ (n : Nibble) (s : State), n.toNat ≤ 10 → n.toNat ≤ s.blk.len.toNat →
    exec (.crcf n) s =
      .next (okState s { s.blk with crc := crcBytes 0xFFFF (firstBytes s.blk n.toNat) }
        ((compute (firstBytes s.blk n.toNat)).setWidth 32))) ∧
  (∀ s : State, exec (.crcf 0) s = .next (okState s { s.blk with crc := 0xFFFF } 0)) ∧
  (∀ s : State, s.blk.len = 8 → firstBytes s.blk 6 = [0x00, 0x06, 0x00, 0x01, 0x86, 0xA0] →
    exec (.crcf 6) s = .next (okState s { s.blk with crc := 0x1422 } 0xEBDD))

/-- R79, whole: `VRFY`, each kind with its length check, its response and what it leaves. -/
def Obligations.VrfyVerifiesFrame : Prop :=
  (decode 0x7000 = .command (.vrfy .rsp) ∧ decode 0x7100 = .command (.vrfy .req) ∧ decode 0x7200 = .command (.vrfy .gen)) ∧
  otherWordsIllegal 7 (fun w => w = 0x7000 ∨ w = 0x7100 ∨ w = 0x7200) ∧
  (∀ s : State, s.blk.len.toNat < 8 → exec (.vrfy .rsp) s = .next (faultState s 2)) ∧
  (∀ s : State, s.blk.len.toNat < 10 → exec (.vrfy .req) s = .next (faultState s 2)) ∧
  (∀ s : State, s.blk.len.toNat < 2 → exec (.vrfy .gen) s = .next (faultState s 2)) ∧
  (∀ s : State, 8 ≤ s.blk.len.toNat → exec (.vrfy .rsp) s =
    .next (okState s { s.blk with crc := crcBytes 0xFFFF (firstBytes s.blk 6), vok := frameGood s.blk 6 }
      (if frameGood s.blk 6 then 1 else 0))) ∧
  (∀ s : State, 10 ≤ s.blk.len.toNat → exec (.vrfy .req) s =
    .next (okState s { s.blk with crc := crcBytes 0xFFFF (firstBytes s.blk 8), vok := false }
      (if frameGood s.blk 8 then 1 else 0))) ∧
  (∀ s : State, 2 ≤ s.blk.len.toNat → s.blk.len.toNat ≤ 10 → exec (.vrfy .gen) s =
    .next (okState s
      { s.blk with crc := crcBytes 0xFFFF (firstBytes s.blk (s.blk.len.toNat - 2)), vok := false }
      (if frameGood s.blk (s.blk.len.toNat - 2) then 1 else 0))) ∧
  (∀ s : State, s.blk.len = 2 → (frameGood s.blk 0 = true ↔ s.blk.fb.read 0 = 0 ∧ s.blk.fb.read 1 = 0)) ∧
  (∀ s : State, s.blk.len = 8 → firstBytes s.blk 8 = [0x00, 0x06, 0x00, 0x01, 0x86, 0xA0, 0xDD, 0xEB] →
    exec (.vrfy .rsp) s = .next (okState s { s.blk with crc := 0x1422, vok := true } 1)) ∧
  (∀ s : State, s.blk.len = 8 → firstBytes s.blk 8 = [0x00, 0x06, 0x00, 0x01, 0x86, 0xA1, 0xDD, 0xEB] →
    ∃ t, exec (.vrfy .rsp) s = .next t ∧ t.blk.vok = false ∧ t.rsps = s.rsps ++ [⟨0, 0⟩])

/-! ### The frame buffer commands -/

/-- R90, whole: `PUSH`. That the buffer keeps its canonical form is part of
`StepKeepsInvariant`. -/
def Obligations.PushAppendsOneByte : Prop :=
  (∀ d : Byte, decode (0x1000#16 + d.setWidth 16) = .command (.push d)) ∧
  otherWordsIllegal 1 (fun w => ∃ d : Byte, w = 0x1000#16 + d.setWidth 16) ∧
  (∀ (d : Byte) (s : State), s.blk.len = 10 → exec (.push d) s = .next (faultState s 3)) ∧
  (∀ (d : Byte) (s : State), s.blk.len.toNat < 10 →
    ∃ fb : Memory,
      exec (.push d) s = .next (okState s
        { crc := s.blk.crc, len := s.blk.len + 1, vok := false, err := s.blk.err, fb := fb }
        (BitVec.ofNat 32 (s.blk.len.toNat + 1))) ∧
      (s.blk.len + 1).toNat = s.blk.len.toNat + 1 ∧
      (s.blk.fb.wf = true → ∀ a, fb.read a = if a = s.blk.len.toNat then d else s.blk.fb.read a)) ∧
  (∀ (d : Byte) (s : State), s.blk.len = 9 →
    ∃ t, exec (.push d) s = .next t ∧ t.blk.len = 10 ∧ t.rsps = s.rsps ++ [⟨0, 10⟩]) ∧
  (∀ s : State, ∃ t u v, exec .clr s = .next t ∧ exec (.push 0x02) t = .next u ∧ exec (.push 0x3B) u = .next v ∧
    v.blk.len = 2 ∧ firstBytes v.blk 2 = [0x02, 0x3B] ∧ v.rsps = s.rsps ++ [⟨0, 0⟩, ⟨0, 1⟩, ⟨0, 2⟩])

/-- R92, whole: `RDFB`, the ungated raw load. -/
def Obligations.RdfbReadsRawByte : Prop :=
  (∀ i : Nibble, i.toNat ≤ 9 → decode (0xA000#16 + i.setWidth 16 * 256) = .command (.rdfb i)) ∧
  otherWordsIllegal 10 (fun w => ∃ i : Nibble, i.toNat ≤ 9 ∧ w = 0xA000#16 + i.setWidth 16 * 256) ∧
  (∀ (i : Nibble) (s : State), i.toNat ≤ 9 → s.blk.len.toNat ≤ i.toNat → exec (.rdfb i) s = .next (faultState s 2)) ∧
  (∀ (i : Nibble) (s : State), i.toNat ≤ 9 → i.toNat < s.blk.len.toNat →
    exec (.rdfb i) s = .next (okState s s.blk (BitVec.ofNat 32 (s.blk.fb.read i.toNat).toNat))) ∧
  (∀ s : State, s.blk.len = 0 → exec (.rdfb 0) s = .next (faultState s 2)) ∧
  (∀ s : State, s.blk.len = 10 → firstBytes s.blk 10 = [0x02, 0x3B, 0x03, 0, 0, 0, 0, 0, 0xA9, 0x24] →
    exec (.rdfb 8) s = .next (okState s s.blk 0xA9) ∧ exec (.rdfb 9) s = .next (okState s s.blk 0x24))

/-- R94, whole: `SEAL`. -/
def Obligations.SealAppendsCode : Prop :=
  decode 0x6000 = .command .sealReq ∧
  otherWordsIllegal 6 (· = 0x6000) ∧
  (∀ s : State, s.blk.len ≠ 8 → exec .sealReq s = .next (faultState s 2)) ∧
  (∀ s : State, s.blk.len = 8 →
    ∃ fb : Memory,
      exec .sealReq s = .next (okState s
        { crc := crcBytes 0xFFFF (firstBytes s.blk 8), len := 10, vok := false, err := s.blk.err, fb := fb }
        ((compute (firstBytes s.blk 8)).setWidth 32)) ∧
      (s.blk.fb.wf = true → ∀ a, fb.read a =
        if a = 8 then lo (compute (firstBytes s.blk 8)) else
        if a = 9 then hi (compute (firstBytes s.blk 8)) else s.blk.fb.read a)) ∧
  codeBytes (compute (List.replicate 8 0x00)) = [0x73, 0x83] ∧ codeBytes (compute (List.replicate 8 0xFF)) = [0x16, 0x04] ∧
  (∀ s : State, s.blk.len = 8 → s.blk.fb.wf = true →
    ∃ t u v, exec .sealReq s = .next t ∧ exec (.vrfy .req) t = .next u ∧ exec (.vrfy .gen) t = .next v ∧
      u.rsps = t.rsps ++ [⟨0, 1⟩] ∧ v.rsps = t.rsps ++ [⟨0, 1⟩]) ∧
  (∀ s : State, s.blk.len = 8 → s.blk.fb.wf = true → firstBytes s.blk 8 = [0x02, 0x3B, 0x03, 0, 0, 0, 0, 0] →
    ∃ t, exec .sealReq s = .next t ∧ t.blk.crc = 0xDB56 ∧ t.blk.len = 10 ∧ t.rsps = s.rsps ++ [⟨0, 0x24A9⟩] ∧
      firstBytes t.blk 10 = [0x02, 0x3B, 0x03, 0, 0, 0, 0, 0, 0xA9, 0x24])

/-! ### The field extractor -/

/-- R100, whole: `XFLD`. -/
def Obligations.XfldExtractsField : Prop :=
  decode 0x8000 = .command .xfld ∧
  otherWordsIllegal 8 (· = 0x8000) ∧
  (∀ s : State, s.blk.len.toNat < 8 → exec .xfld s = .next (faultState s 2)) ∧
  (∀ s : State, 8 ≤ s.blk.len.toNat → s.blk.vok = false → exec .xfld s = .next (faultState s 4)) ∧
  (∀ s : State, 8 ≤ s.blk.len.toNat → s.blk.vok = true →
    ∃ v : Word32, exec .xfld s = .next (okState s s.blk v) ∧
      v.toNat = (s.blk.fb.read 2).toNat * 16777216 + (s.blk.fb.read 3).toNat * 65536 + (s.blk.fb.read 4).toNat * 256 +
        (s.blk.fb.read 5).toNat ∧
      v.extractLsb' 24 8 = s.blk.fb.read 2 ∧ v.extractLsb' 16 8 = s.blk.fb.read 3 ∧
      v.extractLsb' 8 8 = s.blk.fb.read 4 ∧ v.extractLsb' 0 8 = s.blk.fb.read 5) ∧
  (∀ s : State, s.blk.len = 8 → s.blk.vok = true →
    firstBytes s.blk 8 = [0x00, 0x06, 0x00, 0x01, 0x86, 0xA0, 0xDD, 0xEB] →
    exec .xfld s = .next (okState s s.blk 100000))

/-- R106, whole: `XBYT`. -/
def Obligations.XbytExtractsPayloadByte : Prop :=
  (∀ i : Nibble, i.toNat ≤ 5 → decode (0x9000#16 + i.setWidth 16 * 256) = .command (.xbyt i)) ∧
  otherWordsIllegal 9 (fun w => ∃ i : Nibble, i.toNat ≤ 5 ∧ w = 0x9000#16 + i.setWidth 16 * 256) ∧
  (∀ (i : Nibble) (s : State), i.toNat ≤ 5 → s.blk.len.toNat < 8 → exec (.xbyt i) s = .next (faultState s 2)) ∧
  (∀ (i : Nibble) (s : State), i.toNat ≤ 5 → 8 ≤ s.blk.len.toNat → s.blk.vok = false →
    exec (.xbyt i) s = .next (faultState s 4)) ∧
  (∀ (i : Nibble) (s : State), i.toNat ≤ 5 → 8 ≤ s.blk.len.toNat → s.blk.vok = true →
    exec (.xbyt i) s = .next (okState s s.blk (BitVec.ofNat 32 (s.blk.fb.read i.toNat).toNat))) ∧
  (∀ s : State, s.blk.len = 8 → s.blk.vok = true →
    firstBytes s.blk 8 = [0x00, 0x06, 0x00, 0x01, 0x86, 0xA0, 0xDD, 0xEB] →
    exec (.xbyt 0) s = .next (okState s s.blk 0x00) ∧ exec (.xbyt 1) s = .next (okState s s.blk 0x06) ∧
    exec (.xbyt 4) s = .next (okState s s.blk 0x86))

/-- R35: the byte lanes of `XFLD`'s value are the bytes `RDFB 2..5` and `XBYT 2..5` return. -/
def Obligations.FieldBytesAgree : Prop :=
  ∀ (j : Nat) (i : Nibble) (s t u w : State) (v : Word32), j < 4 → i.toNat = 2 + j → 8 ≤ s.blk.len.toNat →
    exec .xfld s = .next t → t.rsps = s.rsps ++ [⟨0, v⟩] →
    exec (.xbyt i) s = .next u → exec (.rdfb i) s = .next w →
    u.rsps = s.rsps ++ [⟨0, (v.extractLsb' (24 - 8 * j) 8).setWidth 32⟩] ∧
    w.rsps = s.rsps ++ [⟨0, (v.extractLsb' (24 - 8 * j) 8).setWidth 32⟩]

/-- R105: "whenever `XFLD` or `XBYT` responds `OK`, the buffer's bytes 6..7 are the code of its bytes 0..5", in every state
of the invariant. -/
def Obligations.TypedReadsOnlyOfVerifiedFrames : Prop :=
  ∀ (i : Instr) (s t : State) (v : Word32), s.Inv → (i = .xfld ∨ ∃ j, i = .xbyt j) →
    exec i s = .next t → t.rsps = s.rsps ++ [⟨0, v⟩] →
    s.blk.vok = true ∧ 8 ≤ s.blk.len.toNat ∧ frameGood s.blk 6 = true

/-! ### The system commands -/

/-- R120, whole: `CLR` leaves the reset state bit for bit. -/
def Obligations.ClrRestoresResetState : Prop :=
  decode 0x0000 = .command .clr ∧
  otherWordsIllegal 0 (· = 0x0000) ∧
  (∀ s : State, exec .clr s = .next (okState s State.reset.blk 0)) ∧
  (∀ (s t : State), exec .clr s = .next t →
    t.blk.crc = 0xFFFF ∧ t.blk.len = 0 ∧ t.blk.vok = false ∧ t.blk.err = 0 ∧ ∀ a, t.blk.fb.read a = 0) ∧
  (∀ (i : Instr) (s t : State), i ≠ .clr → exec i s = .next t →
    (s.blk.err ≠ 0 → t.blk.err ≠ 0) ∧ (s.blk.len.toNat ≤ 10 → s.blk.len.toNat ≤ t.blk.len.toNat)) ∧
  exec .clr State.reset = .next (okState State.reset State.reset.blk 0)

/-- R122, whole: `STAT`. -/
def Obligations.StatReadsStatusView : Prop :=
  decode 0xB000 = .command .stat ∧
  otherWordsIllegal 11 (· = 0xB000) ∧
  (∀ s : State, ∃ v : Word32, exec .stat s = .next (okState s s.blk v) ∧
    v.toNat = s.blk.crc.toNat * 65536 + s.blk.err.toNat * 256 + s.blk.vok.toNat * 16 + s.blk.len.toNat ∧
    v.extractLsb' 16 16 = s.blk.crc ∧ v.extractLsb' 12 4 = 0#4 ∧ v.extractLsb' 8 4 = s.blk.err ∧
    v.extractLsb' 5 3 = 0#3 ∧ v.getLsbD 4 = s.blk.vok ∧ v.extractLsb' 0 4 = s.blk.len) ∧
  exec .stat State.reset = .next (okState State.reset State.reset.blk 0xFFFF0000) ∧
  (∀ s : State, s.blk.crc = 0x1422 → s.blk.err = 0 → s.blk.vok = true → s.blk.len = 8 →
    exec .stat s = .next (okState s s.blk 0x14220018)) ∧
  (∀ s : State, s.blk.crc = 0xFFFF → s.blk.err = 3 → s.blk.vok = false → s.blk.len = 10 →
    exec .stat s = .next (okState s s.blk 0xFFFF030A))

/-! ### Faults -/

/-- R140: a command word that responds with a status other than `OK` has changed nothing but `ERR`, which keeps the first
fault, and responds with value 0. -/
def Obligations.FaultsArePrecise : Prop :=
  (∀ (f : FaultCode) (s : State), raise f s = .next (faultState s f.code)) ∧
  (∀ (w : Word16) (s t : State) (r : Response), execWord w s = .next t → t.rsps = s.rsps ++ [r] → r.st ≠ 0 →
    t = faultState s r.st)

/-- R131 to R135: the codes, and, for each fault, exactly when a command word reports it. -/
def Obligations.FaultCodesAndTheirCommands : Prop :=
  (FaultCode.illegal.code = 1 ∧ FaultCode.malformed.code = 2 ∧ FaultCode.overflow.code = 3 ∧
    FaultCode.unverified.code = 4) ∧
  (∀ (f : FaultCode) (s t : State), raise f s = .next t →
    t.rsps = s.rsps ++ [⟨f.code, 0⟩] ∧ (s.blk.err = 0 → t.blk.err = f.code)) ∧
  (∀ (w : Word16) (s t : State) (r : Response), execWord w s = .next t → t.rsps = s.rsps ++ [r] →
    r.st.toNat ≤ 4 ∧
    (r.st = 1 ↔ ∃ why, decode w = .illegal why) ∧
    (r.st = 2 ↔ ∃ i, decode w = .command i ∧ tooShort i s.blk.len.toNat) ∧
    (r.st = 3 ↔ s.blk.len = 10 ∧ ∃ d, decode w = .command (.push d)) ∧
    (r.st = 4 ↔ (decode w = .command .xfld ∨ ∃ j, decode w = .command (.xbyt j)) ∧
      8 ≤ s.blk.len.toNat ∧ s.blk.vok = false))

/-- R137: `ILLEGAL` before the length check, the length check before `UNVERIFIED`, whatever the rest of the state holds. -/
def Obligations.FaultPriority : Prop :=
  (∀ (w : Word16) (why : Illegal) (s : State), decode w = .illegal why → execWord w s = .next (faultState s 1)) ∧
  (∀ (i : Nibble) (s : State), 5 < i.toNat → ∀ d : Byte, execWord (commandWord 9 i d) s = .next (faultState s 1)) ∧
  (∀ s : State, s.blk.len.toNat < 8 → execWord 0x8000 s = .next (faultState s 2)) ∧
  (∀ (i : Nibble) (s : State), i.toNat ≤ 5 → s.blk.len.toNat < 8 →
    execWord (commandWord 9 i 0) s = .next (faultState s 2))

/-- R14, R142: `ERR` changes only from 0 to the fault a command reports, or to 0 by `CLR`. -/
def Obligations.ErrKeepsFirstFault : Prop :=
  ∀ (i : Instr) (s t : State) (r : Response), exec i s = .next t → t.rsps = s.rsps ++ [r] →
    (i = .clr → t.blk.err = 0) ∧
    (i ≠ .clr → s.blk.err ≠ 0 → t.blk.err = s.blk.err) ∧
    (i ≠ .clr → s.blk.err = 0 → t.blk.err = r.st)

/-- R142: "`ERR != 0` blocks nothing": whatever `ERR` holds, a command word gives the same response (`STAT` shows `ERR`) and
leaves the same `CRC`, `LEN`, `VOK` and `FB`. -/
def Obligations.ErrBlocksNothing : Prop :=
  ∀ (w : Word16) (e : Nibble) (s t : State), decode w ≠ .command .stat → execWord w s = .next t →
    ∃ t', execWord w { s with blk := { s.blk with err := e } } = .next t' ∧ t'.rsps = t.rsps ∧
      t'.blk.crc = t.blk.crc ∧ t'.blk.len = t.blk.len ∧ t'.blk.vok = t.blk.vok ∧ t'.blk.fb = t.blk.fb

/-! ### Rules of the whole machine -/

/-- R51: `exec` is defined for every command word in every state with a legal `LEN`, and gives one response with a status
0..4 whose value is 0 unless the status is `OK` (R54); what the host will present is not touched. -/
def Obligations.EveryWordIsAnsweredOnce : Prop :=
  ∀ (w : Word16) (s : State), s.blk.len.toNat ≤ 10 →
    ∃ t r, execWord w s = .next t ∧ t.inputs = s.inputs ∧ t.rsps = s.rsps ++ [r] ∧ r.st.toNat ≤ 4 ∧ (r.st ≠ 0 → r.val = 0)

/-- R51: the new state of the block and the response are a function of the old state of the block and the word alone. -/
def Obligations.AnswerDependsOnBlockAndWord : Prop :=
  ∀ (w : Word16) (s t : State), execWord w s = .next t →
    ∃ r, t.rsps = s.rsps ++ [r] ∧ answer s.blk w = .next (t.blk, r) ∧
      ∀ s' : State, s'.blk = s.blk → execWord w s' = .next { blk := t.blk, inputs := s'.inputs, rsps := s'.rsps ++ [r] }

/-- The frame of the commands that store no byte (R20): every byte, `LEN`, and each register a command does not write stay.
`ERR` stays unless the command faults (which fault it then takes is `ErrKeepsFirstFault`). -/
def Obligations.NonStoringCommandsFrame : Prop :=
  ∀ (i : Instr) (s t : State), exec i s = .next t → i ≠ .clr → (∀ d, i ≠ .push d) → i ≠ .sealReq →
    t.blk.len = s.blk.len ∧ (∀ a, t.blk.fb.read a = s.blk.fb.read a) ∧
    ((∀ k, i ≠ .vrfy k) → t.blk.vok = s.blk.vok) ∧
    (i ≠ .crci → (∀ d, i ≠ .crcb d) → (∀ n, i ≠ .crcf n) → (∀ k, i ≠ .vrfy k) → t.blk.crc = s.blk.crc) ∧
    (s.blk.err ≠ 0 → t.blk.err = s.blk.err) ∧ (∀ v, t.rsps = s.rsps ++ [⟨0, v⟩] → t.blk.err = s.blk.err) ∧
    t.inputs = s.inputs

/-- The frame of the commands that store (R20, R38): `PUSH` at `LEN`, `SEAL` at 8 and 9; every other byte reads as before;
`PUSH` keeps `CRC`; both keep `ERR` unless they fault. -/
def Obligations.StoringCommandsFrame : Prop :=
  (∀ (d : Byte) (s t : State), s.blk.fb.wf = true → exec (.push d) s = .next t →
    (∀ a, a ≠ s.blk.len.toNat → t.blk.fb.read a = s.blk.fb.read a) ∧ t.blk.crc = s.blk.crc ∧
    (s.blk.err ≠ 0 → t.blk.err = s.blk.err) ∧ (s.blk.len ≠ 10 → t.blk.err = s.blk.err) ∧ t.inputs = s.inputs) ∧
  (∀ s t : State, s.blk.fb.wf = true → exec .sealReq s = .next t →
    (∀ a, a ≠ 8 → a ≠ 9 → t.blk.fb.read a = s.blk.fb.read a) ∧
    (s.blk.err ≠ 0 → t.blk.err = s.blk.err) ∧ (s.blk.len = 8 → t.blk.err = s.blk.err) ∧ t.inputs = s.inputs)

/-- R38: a read that succeeds changes no state at all; repeating `CRCF` or `VRFY` gives the same response and leaves the same
block. -/
def Obligations.ReadsAreIdempotent : Prop :=
  (∀ (i : Instr) (s t : State) (v : Word32),
    ((∃ j, i = .rdfb j) ∨ (∃ j, i = .xbyt j) ∨ i = .xfld ∨ i = .crcr ∨ i = .stat) →
    exec i s = .next t → t.rsps = s.rsps ++ [⟨0, v⟩] → t.blk = s.blk) ∧
  (∀ (i : Instr) (s t : State) (r : Response), ((∃ n, i = .crcf n) ∨ ∃ k, i = .vrfy k) →
    exec i s = .next t → t.rsps = s.rsps ++ [r] →
    exec i t = .next { blk := t.blk, inputs := t.inputs, rsps := t.rsps ++ [r] })

/-- R13: `VOK` becomes 1 only by a `VRFY 0` that finds the codes equal; a faulting command never changes it; every other
`VRFY` outcome and every successful `PUSH`, `SEAL`, `CLR` clears it. -/
def Obligations.VokSetOnlyByPassingVerify : Prop :=
  (∀ (i : Instr) (s t : State), exec i s = .next t → s.blk.vok = false → t.blk.vok = true →
    i = .vrfy .rsp ∧ frameGood s.blk 6 = true ∧ t.rsps = s.rsps ++ [⟨0, 1⟩]) ∧
  (∀ (i : Instr) (s t : State) (r : Response), exec i s = .next t → t.rsps = s.rsps ++ [r] → r.st ≠ 0 →
    t.blk.vok = s.blk.vok) ∧
  (∀ (i : Instr) (s t : State) (v : Word32), exec i s = .next t → t.rsps = s.rsps ++ [⟨0, v⟩] →
    ((∃ d, i = .push d) ∨ i = .sealReq ∨ i = .clr ∨ (∃ k, i = .vrfy k ∧ (k ≠ .rsp ∨ v = 0))) → t.blk.vok = false)

/-- R40 (a): "a `PUSH` followed by `RDFB` of the same index returns the pushed byte". -/
def Obligations.PushThenReadReturnsByte : Prop :=
  ∀ (d : Byte) (s : State), s.blk.len.toNat < 10 → s.blk.fb.wf = true →
    ∃ t, exec (.push d) s = .next t ∧ exec (.rdfb s.blk.len) t = .next (okState t t.blk (d.setWidth 32))

/-- The invariants of R17 hold at reset. -/
def Obligations.ResetMeetsInvariant : Prop := State.Inv State.reset

/-- R17: every step keeps the invariants: `LEN <= 10`, `ERR <= 4`, a verified buffer holds a good response frame, bytes at
and above `LEN` are 0x00; with the canonical form of the buffer. -/
def Obligations.StepKeepsInvariant : Prop :=
  ∀ s t : State, s.Inv → step s = .next t → t.Inv

/-- A run from a state of the invariant never stops: no fault and no refusal, however long it is (R51, R180). -/
def Obligations.RunsNeverStop : Prop :=
  ∀ (k : Nat) (s : State), s.Inv → s.SafeFor k

/-- R160: the reset state. -/
def Obligations.ResetStateValues : Prop :=
  State.reset.blk.crc = 0xFFFF ∧ State.reset.blk.len = 0 ∧ State.reset.blk.vok = false ∧ State.reset.blk.err = 0 ∧
  (∀ a, State.reset.blk.fb.read a = 0x00) ∧
  exec .stat State.reset = .next (okState State.reset State.reset.blk 0xFFFF0000) ∧
  ∀ s : State, ∃ t, exec .clr s = .next t ∧ t.blk = State.reset.blk

/-- A step runs what the host presents first: a legal word is the instruction it decodes to, an illegal word the fault
`ILLEGAL`, a reset edge the reset state (R51, R58, R161); with nothing presented nothing happens (R143). The queue of inputs
is the model's own (log entries 1 and 2). -/
def Obligations.StepRunsWhatIsPresented : Prop :=
  (∀ (s : State) (w : Word16) (rest : List HostInput) (i : Instr), s.inputs = .command w :: rest → decode w = .command i →
    step s = exec i { s with inputs := rest }) ∧
  (∀ (s : State) (w : Word16) (rest : List HostInput) (why : Illegal), s.inputs = .command w :: rest →
    decode w = .illegal why → step s = .next (faultState { s with inputs := rest } 1)) ∧
  (∀ (s : State) (rest : List HostInput), s.inputs = .reset :: rest →
    step s = .next { blk := State.reset.blk, inputs := rest, rsps := s.rsps }) ∧
  (∀ s : State, s.inputs = [] → step s = .next s) ∧
  (∀ (s : State) (w : Nat) (i : Instr), w < 65536 → decode (BitVec.ofNat 16 w) = .command i →
    step (s.withFetchWord 16 w) = exec i s)

/-! ### Sequences the spec names (R61, R74) -/

/-- `COMPUTE` (R61) realises `compute` for a sequence of any length, from any state (R74 law 1): the last response is its code,
and only `CRC` has changed. -/
def Obligations.StreamComputesCode : Prop :=
  ∀ (bs : List Byte) (s : State), ∃ t,
    execSeq (Pseudo.expand (.compute bs)) s = .next t ∧
    t.blk = { s.blk with crc := crcBytes 0xFFFF bs } ∧
    t.rsps = s.rsps ++ List.replicate (bs.length + 1) ⟨0, 0⟩ ++ [⟨0, (compute bs).setWidth 32⟩]

/-- After `CLR`, a `PUSH` of each of at most eight bytes and of their two code bytes, `VRFY 2` responds `(OK, 1)` (R74 law 5
on the block). -/
def Obligations.LoadedFrameVerifies : Prop :=
  ∀ (bs : List Byte) (s : State), bs.length ≤ 8 → ∃ t,
    execSeq (Pseudo.expand (.load (bs ++ codeBytes (compute bs)))) s = .next t ∧
    firstBytes t.blk (bs.length + 2) = bs ++ codeBytes (compute bs) ∧
    ∃ u, exec (.vrfy .gen) t = .next u ∧ u.rsps = t.rsps ++ [⟨0, 1⟩]

/-- `SEALREQ` (R61) of eight bytes responds with their code and leaves the ten wire bytes in the buffer (R32, R93), which
`VRFY 1` accepts (R94). -/
def Obligations.SealedRequestIsItsWireBytes : Prop :=
  ∀ (bs : List Byte) (s : State), bs.length = 8 → ∃ t r,
    execSeq (Pseudo.expand (.sealreq bs)) s = .next t ∧
    t.rsps = r ++ [⟨0, (compute bs).setWidth 32⟩] ∧ t.blk.len = 10 ∧
    firstBytes t.blk 10 = bs ++ codeBytes (compute bs) ∧
    ∃ u, exec (.vrfy .req) t = .next u ∧ u.rsps = t.rsps ++ [⟨0, 1⟩]

/-- `CHECKRSP` (R61) of eight bytes opens the typed reads exactly when the last two are the code of the first six (R79, R100). -/
def Obligations.CheckedResponseOpensTypedReads : Prop :=
  ∀ (bs : List Byte) (s : State), bs.length = 8 → ∃ t,
    execSeq (Pseudo.expand (.checkrsp bs)) s = .next t ∧
    t.blk.vok = decide (bs.drop 6 = codeBytes (compute (bs.take 6))) ∧
    (t.blk.vok = true → ∃ v : Word32, exec .xfld t = .next (okState t t.blk v) ∧
      [v.extractLsb' 24 8, v.extractLsb' 16 8, v.extractLsb' 8 8, v.extractLsb' 0 8] = (bs.drop 2).take 4) ∧
    (t.blk.vok = false → exec .xfld t = .next (faultState t 4))

/-! ### The ports -/

/-- The ports carry the commands (R50 to R52, R161): for any latency and any run of clock edges from ports that owe no
response, the block ends where the step function leaves it on the accepted words and resets in order; the responses
delivered are among its responses in order, and without a reset they are all of them but the one still due. The exact cycle
counts rest on log entries 8 and 9. -/
def Obligations.PortsCarryTheStepFunction : Prop :=
  ∀ (lat : Nat → Word16 → Nat) (p : PortState) (is : List PortIn) (tr : PortTrace), p.pending = [] →
    clockRun lat p is = .next tr →
    ∃ rs, Host.Core.run Sys2Proof.core tr.events.length (State.mk p.blk tr.events []) =
        .next (State.mk tr.last.blk [] rs) ∧
      tr.delivered.Sublist rs ∧
      ((∀ i ∈ is, i.rst = false) → rs = tr.delivered ++ tr.last.pending)

/-- R52 (b) to (e), (h): an accepted word changes the block at once; with no reset meanwhile the response is on the ports `LAT`
cycles later for one cycle, `cmd_ready` is 0 until after it, nothing presented meanwhile is accepted, and then the block is
idle. How an edge counts as a cycle is log entry 8. -/
def Obligations.ResponseComesLatCyclesLater : Prop :=
  ∀ (lat : Nat → Word16 → Nat) (p q : PortState) (i : PortIn) (b : Block) (r : Response), (∀ e w, 1 ≤ lat e w) →
    p.accepts i = true → answer p.blk i.cmd = .next (b, r) → clockEdge lat p i = .next q →
    ∀ js : List PortIn, (∀ j ∈ js, j.rst = false) → js.length ≤ lat p.edges i.cmd →
      ∃ tr, clockRun lat q js = .next tr ∧ tr.events = [] ∧ tr.last.blk = b ∧
        (js.length + 1 < lat p.edges i.cmd →
          (tr.last.out false).cmdReady = false ∧ (tr.last.out false).rspValid = false) ∧
        (js.length + 1 = lat p.edges i.cmd →
          tr.last.out false = { cmdReady := false, rspValid := true, rspSt := r.st, rspVal := r.val }) ∧
        (js.length = lat p.edges i.cmd →
          tr.last.phase = .idle ∧ (tr.last.out false).cmdReady = true ∧ (tr.last.out false).rspValid = false)

/-- R161: an edge with `rst = 1` gives the reset state and accepts nothing, a response due is abandoned, `cmd_ready` and
`rsp_valid` are 0 while `rst` stays 1, and on the first edge with `rst = 0` a command is accepted. What the outputs are before
that edge rests on log entry 9. -/
def Obligations.PortResetWins : Prop :=
  ∀ (lat : Nat → Word16 → Nat) (p : PortState) (i : PortIn), i.rst = true →
    p.accepts i = false ∧
    ∃ q, clockEdge lat p i = .next q ∧ q.blk = State.reset.blk ∧ q.pending = [] ∧
      (q.out true).cmdReady = false ∧ (q.out true).rspValid = false ∧ (q.out false).cmdReady = true ∧
      ∀ j : PortIn, j.rst = false → j.cmdValid = true → q.accepts j = true

/-- The clock edges never stop and keep the invariant of the block (R17, R52). -/
def Obligations.ClockEdgesKeepInvariant : Prop :=
  ∀ (lat : Nat → Word16 → Nat) (p : PortState) (i : PortIn), p.blk.Inv → ∃ q, clockEdge lat p i = .next q ∧ q.blk.Inv

/-! ### The model's own choices, and the host's readings -/

/-- Log entry 4, the model's choice: with `LEN` above 10, which no run reaches (R12), `PUSH` and `VRFY 2` would leave the
buffer and stop by name. -/
def Obligations.OutOfBufferAccessStops : Prop :=
  ∀ s : State, 10 < s.blk.len.toNat →
    (∀ d, exec (.push d) s = .fault .bufferBounds) ∧ exec (.vrfy .gen) s = .fault .bufferBounds

/-- Log entry 5, the model's choice: a term whose operand no legal word carries is `ILLEGAL`, as the words are (R57). -/
def Obligations.IllFormedTermsAreIllegal : Prop :=
  ∀ (i : Instr) (s : State), i.wf = false → exec i s = .next (faultState s 1)

/-- R60: "`PUSH 0x3B` and `PUSH 59` are the same word 0x103B"; `VRFY` takes names; a comment is dropped; an out-of-range
operand, a missing one, or lower case is no command (the lexical details are log entry 13). -/
def Obligations.AssemblerLines : Prop :=
  assembleWord "PUSH 0x3B".toList = some 0x103B ∧ assembleWord "PUSH 59".toList = some 0x103B ∧
  assembleWord "VRFY GEN".toList = some 0x7200 ∧ assembleWord "VRFY REQ".toList = some 0x7100 ∧
  assembleWord "VRFY RSP".toList = some 0x7000 ∧ assembleWord "VRFY 2".toList = some 0x7200 ∧
  assembleWord "STAT ; the view".toList = some 0xB000 ∧ assembleWord "CRCF 10".toList = some 0x5A00 ∧
  assembleLine "XBYT 6".toList = .error ∧ assembleLine "PUSH".toList = .error ∧ assembleLine "clr".toList = .error ∧
  assembleLine "; nothing".toList = .blank

/-- Whatever the assembler accepts is a well-formed command, and its word decodes to it (R60). -/
def Obligations.AssembledLinesAreLegal : Prop :=
  ∀ (line : List Char) (i : Instr), assembleLine line = .command i →
    i.wf = true ∧ ∃ w, assembleWord line = some w ∧ decode w = .command i

/-- R102 to R104: the two 32-bit views of an `XFLD` value; the layout of R104 is general knowledge (log entry 15). 0x000186A0
is 100000; 0x44BB8800 is `12290048 * 2^-13 = 1500.25`. -/
def Obligations.HostViewsOfField : Prop :=
  unsignedView 0x000186A0 = 100000 ∧ floatView 0x44BB8800 = .finite false 12290048 (-13) ∧
  (12290048 : ℚ) / 2 ^ 13 = 1500.25 ∧
  floatView 0x80000000 = .finite true 0 (-149) ∧ floatView 0x7F800000 = .infinite false ∧ floatView 0xFFFFFFFF = .nan
end

