-- ==== Sys2Proof/Laws/Checksum.lean ====
section
/-! SUPPORT. The small equations of the checksum functions. -/

namespace Sys2Proof.Machine

@[simp] theorem crcBytes_nil (r : Word16) : crcBytes r [] = r := rfl

@[simp] theorem crcBytes_cons (r : Word16) (d : Byte) (s : List Byte) :
    crcBytes r (d :: s) = crcBytes (crcByte r d) s := rfl

/-- The eight iterations of a byte, written out. -/
theorem crcByte_unfold (r : Word16) (d : Byte) :
    crcByte r d =
      crcBit (crcBit (crcBit (crcBit (crcBit (crcBit (crcBit (crcBit r (d.getLsbD 0)) (d.getLsbD 1)) (d.getLsbD 2))
        (d.getLsbD 3)) (d.getLsbD 4)) (d.getLsbD 5)) (d.getLsbD 6)) (d.getLsbD 7) := rfl

/-- R74 law 3: the empty sequence has code 0x0000. -/
theorem compute_nil : compute [] = 0x0000 := rfl

/-- The feedback constant has its top bit set (R70). -/
theorem poly_top : Config.poly[15] = true := by decide

/-- Shifting right what `crcUnbit` gives leaves its `r1`, whose bit 15 is 0 either way. -/
theorem crcUnbit_ushiftRight (q : Word16) (b : Bool) :
    crcUnbit q b >>> 1 = if q.getLsbD 15 = true then q ^^^ Config.poly else q := by
  apply BitVec.eq_of_getLsbD_eq
  intro i hi
  rw [BitVec.getLsbD_ushiftRight, crcUnbit, BitVec.getLsbD_or, BitVec.getLsbD_shiftLeft, BitVec.getLsbD_setWidth,
    BitVec.getLsbD_ofBool]
  rcases Nat.lt_or_ge i 15 with h | h
  · simp [show 1 + i < 16 by omega]
  · obtain rfl : i = 15 := by omega
    cases hq : q.getLsbD 15 <;> simpa [poly_top] using hq

/-- R74 law 4: `crcUnbit` gives a register whose iteration is `q`, so every register is the result of one. -/
theorem crcBit_crcUnbit (q : Word16) (b : Bool) : crcBit (crcUnbit q b) b = q := by
  have h0 : ((crcUnbit q b).getLsbD 0 ^^ b) = q.getLsbD 15 := by
    simp [crcUnbit]
  rw [crcBit, h0, crcUnbit_ushiftRight]
  cases q.getLsbD 15 <;> simp

theorem codeMatches_iff (data : List Byte) (c0 c1 : Byte) :
    codeMatches data c0 c1 = true ↔ [c0, c1] = codeBytes (compute data) := by
  simp [codeMatches, codeBytes]

end Sys2Proof.Machine
end

