-- ==== Sys2Proof/Laws/Decode.lean ====
section
/-! SUPPORT. The fields of a command word, and everything a word can decode to, said once. -/

namespace Sys2Proof

@[simp] theorem fieldOp_commandWord (op a : Nibble) (d : Byte) : fieldOp (commandWord op a d) = op := by
  apply BitVec.eq_of_toNat_eq
  simp only [commandWord, fieldOp, BitVec.extractLsb'_toNat, BitVec.toNat_ofNat, Nat.shiftRight_eq_div_pow]; omega

@[simp] theorem fieldA_commandWord (op a : Nibble) (d : Byte) : fieldA (commandWord op a d) = a := by
  apply BitVec.eq_of_toNat_eq
  simp only [commandWord, fieldA, BitVec.extractLsb'_toNat, BitVec.toNat_ofNat, Nat.shiftRight_eq_div_pow]; omega

@[simp] theorem fieldD_commandWord (op a : Nibble) (d : Byte) : fieldD (commandWord op a d) = d := by
  apply BitVec.eq_of_toNat_eq
  simp only [commandWord, fieldD, BitVec.extractLsb'_toNat, BitVec.toNat_ofNat, Nat.shiftRight_eq_div_pow]; omega

theorem toNat_fieldOp (w : Word16) : (fieldOp w).toNat = w.toNat / 4096 := by
  simp only [fieldOp, BitVec.extractLsb'_toNat, Nat.shiftRight_eq_div_pow]; omega

theorem toNat_fieldA (w : Word16) : (fieldA w).toNat = w.toNat / 256 % 16 := by
  simp only [fieldA, BitVec.extractLsb'_toNat, Nat.shiftRight_eq_div_pow]

theorem toNat_fieldD (w : Word16) : (fieldD w).toNat = w.toNat % 256 := by
  simp only [fieldD, BitVec.extractLsb'_toNat, Nat.shiftRight_eq_div_pow]; omega

/-- A word is the word of its own fields (R53). -/
theorem commandWord_fields (w : Word16) : commandWord (fieldOp w) (fieldA w) (fieldD w) = w := by
  apply BitVec.eq_of_toNat_eq
  simp only [commandWord, BitVec.toNat_ofNat, toNat_fieldOp, toNat_fieldA, toNat_fieldD]; omega

/-- Words are equal when their fields are. -/
theorem word_ext {w w' : Word16} (h1 : fieldOp w = fieldOp w') (h2 : fieldA w = fieldA w') (h3 : fieldD w = fieldD w') :
    w = w' := by
  rw [← commandWord_fields w, h1, h2, h3, commandWord_fields]

/-- The sixteen opcodes. -/
theorem nibble_cases (n : Nibble) :
    n = 0 ∨ n = 1 ∨ n = 2 ∨ n = 3 ∨ n = 4 ∨ n = 5 ∨ n = 6 ∨ n = 7 ∨ n = 8 ∨ n = 9 ∨ n = 10 ∨ n = 11 ∨ n = 12 ∨
      n = 13 ∨ n = 14 ∨ n = 15 := by
  revert n; decide

end Sys2Proof
end

