-- ==== Sys2Proof/Laws/Memory.lean ====
section
/-! SUPPORT. The frame buffer as a memory: reading after writing, the canonical form, and that equal bytes make equal lists. -/

namespace Sys2Proof.Machine

@[simp] theorem Memory.read_nil (a : Nat) : Memory.read [] a = 0 := rfl

@[simp] theorem Memory.read_cons (p : Host.Cell) (m : Memory) (a : Nat) :
    Memory.read (p :: m) a = if p.1 = a then p.2 else Memory.read m a := by
  cases p; rfl

theorem Memory.wfFrom_cons {lo : Nat} {p : Host.Cell} {m : Memory} :
    Memory.wfFrom lo (p :: m) = true ↔ lo ≤ p.1 ∧ p.1 < 10 ∧ p.2 ≠ 0 ∧ Memory.wfFrom (p.1 + 1) m = true := by
  obtain ⟨a, v⟩ := p
  simp only [Memory.wfFrom, Bool.and_eq_true, decide_eq_true_eq, and_assoc]
  rfl

theorem Memory.cons_zero (a : Nat) (m : Memory) : Memory.cons a 0 m = m := if_pos rfl

theorem Memory.cons_of_ne {a : Nat} {v : Byte} {m : Memory} (h : v ≠ 0) : Memory.cons a v m = (a, v) :: m := if_neg h

/-- A canonical list may start lower. -/
theorem Memory.wfFrom_mono {lo lo' : Nat} {m : Memory} (h : Memory.wfFrom lo m = true) (hl : lo' ≤ lo) :
    Memory.wfFrom lo' m = true := by
  cases m with
  | nil => rfl
  | cons p m => rw [Memory.wfFrom_cons] at h ⊢; exact ⟨by omega, h.2⟩

/-- Below its start a canonical list has no byte. -/
theorem Memory.read_below {lo a : Nat} {m : Memory} (h : Memory.wfFrom lo m = true) (ha : a < lo) :
    m.read a = 0 := by
  induction m generalizing lo with
  | nil => rfl
  | cons p m ih =>
    rw [Memory.wfFrom_cons] at h
    rw [Memory.read_cons, if_neg (by omega)]
    exact ih h.2.2.2 (by omega)

/-- Outside the buffer a canonical list has no byte. -/
theorem Memory.read_outside {lo a : Nat} {m : Memory} (h : Memory.wfFrom lo m = true) (ha : 10 ≤ a) :
    m.read a = 0 := by
  induction m generalizing lo with
  | nil => rfl
  | cons p m ih =>
    rw [Memory.wfFrom_cons] at h
    rw [Memory.read_cons, if_neg (by omega)]
    exact ih h.2.2.2

theorem Memory.wfFrom_consByte {lo a : Nat} {v : Byte} {m : Memory} (h : Memory.wfFrom (a + 1) m = true)
    (hl : lo ≤ a) (ha : a < 10) : Memory.wfFrom lo (Memory.cons a v m) = true := by
  by_cases hv : v = 0
  · rw [hv, Memory.cons_zero]; exact Memory.wfFrom_mono h (by omega)
  · rw [Memory.cons_of_ne hv]; exact Memory.wfFrom_cons.2 ⟨hl, ha, hv, h⟩

theorem Memory.read_consByte {a b : Nat} {v : Byte} {m : Memory} (h : Memory.wfFrom (a + 1) m = true) :
    (Memory.cons a v m).read b = if a = b then v else m.read b := by
  by_cases hv : v = 0
  · rw [hv, Memory.cons_zero]
    split
    · next hab => exact hab ▸ Memory.read_below h (by omega)
    · rfl
  · rw [Memory.cons_of_ne hv, Memory.read_cons]

/-- A write keeps the canonical form. -/
theorem Memory.wfFrom_write {lo a : Nat} {v : Byte} {m : Memory} (h : Memory.wfFrom lo m = true)
    (hl : lo ≤ a) (ha : a < 10) : Memory.wfFrom lo (m.write a v) = true := by
  induction m generalizing lo with
  | nil => exact Memory.wfFrom_consByte rfl hl ha
  | cons p m ih =>
    have hp := Memory.wfFrom_cons.1 h
    simp only [Memory.write]
    split
    · exact Memory.wfFrom_consByte (Memory.wfFrom_cons.2 ⟨by omega, hp.2⟩) hl ha
    · split
      · next hap => exact Memory.wfFrom_consByte (hap ▸ hp.2.2.2) hl ha
      · exact Memory.wfFrom_cons.2 ⟨hp.1, hp.2.1, hp.2.2.1, ih hp.2.2.2 (by omega)⟩

/-- Reading after a write: the written byte at its address, every other byte as before. -/
theorem Memory.read_write {lo a b : Nat} {v : Byte} {m : Memory} (h : Memory.wfFrom lo m = true) :
    (m.write a v).read b = if a = b then v else m.read b := by
  induction m generalizing lo with
  | nil => exact Memory.read_consByte rfl
  | cons p m ih =>
    have hp := Memory.wfFrom_cons.1 h
    simp only [Memory.write]
    split
    · exact Memory.read_consByte (Memory.wfFrom_cons.2 ⟨by omega, hp.2⟩)
    · split
      · next hap =>
        rw [Memory.read_consByte (hap ▸ hp.2.2.2), Memory.read_cons]
        split
        · rfl
        · rw [if_neg (by omega)]
      · rw [Memory.read_cons, ih hp.2.2.2, Memory.read_cons]
        by_cases h1 : p.1 = b
        · rw [if_pos h1, if_neg (by omega), if_pos h1]
        · simp [h1]

theorem Memory.wf_write {a : Nat} {v : Byte} {m : Memory} (h : m.wf = true) (ha : a < 10) :
    (m.write a v).wf = true := Memory.wfFrom_write h (Nat.zero_le a) ha

/-- Writing several bytes inside the buffer keeps the canonical form. -/
theorem Memory.wf_writeBytes {addr : Nat} {vs : List Byte} {m : Memory} (h : m.wf = true)
    (ha : addr + vs.length ≤ 10) : (m.writeBytes addr vs).wf = true := by
  induction vs generalizing m addr with
  | nil => exact h
  | cons v vs ih =>
    simp only [List.length_cons] at ha
    exact ih (Memory.wf_write h (by omega)) (by omega)

/-- Reading after writing several bytes inside the buffer. -/
theorem Memory.read_writeBytes {addr b : Nat} {vs : List Byte} {m : Memory} (h : m.wf = true)
    (ha : addr + vs.length ≤ 10) :
    (m.writeBytes addr vs).read b = if b < addr then m.read b else (vs[b - addr]?).getD (m.read b) := by
  induction vs generalizing m addr with
  | nil => simp [Memory.writeBytes]
  | cons v vs ih =>
    simp only [List.length_cons] at ha
    rw [Memory.writeBytes, ih (Memory.wf_write h (by omega)) (by omega), Memory.read_write h]
    rcases Nat.lt_trichotomy b addr with hb | hb | hb
    · rw [if_pos (by omega), if_pos hb, if_neg (by omega)]
    · subst hb; simp
    · rw [if_neg (by omega), if_neg (by omega), if_neg (by omega)]
      obtain ⟨k, hk⟩ : ∃ k, b - addr = k + 1 := ⟨b - addr - 1, by omega⟩
      rw [hk, List.getElem?_cons_succ, show b - (addr + 1) = k by omega]

@[simp] theorem Memory.length_readBytes (m : Memory) (addr n : Nat) : (m.readBytes addr n).length = n := by
  induction n generalizing addr with
  | zero => rfl
  | succ n ih => simp [Memory.readBytes, ih]

/-- The bytes `MemRead` gives, one by one. -/
theorem Memory.getElem?_readBytes (m : Memory) (addr n i : Nat) :
    (m.readBytes addr n)[i]? = if i < n then some (m.read (addr + i)) else none := by
  induction n generalizing addr i with
  | zero => simp [Memory.readBytes]
  | succ n ih =>
    cases i with
    | zero => simp [Memory.readBytes]
    | succ i => simp [Memory.readBytes, ih, Nat.add_assoc, Nat.add_comm 1 i]

/-- Reading a range whose bytes agree gives the same list. -/
theorem Memory.readBytes_congr {m m' : Memory} {addr n : Nat}
    (h : ∀ a, addr ≤ a → a < addr + n → m.read a = m'.read a) : m.readBytes addr n = m'.readBytes addr n := by
  induction n generalizing addr with
  | zero => rfl
  | succ n ih =>
    rw [Memory.readBytes, Memory.readBytes, h addr (by omega) (by omega), ih fun a h1 h2 => h a (by omega) (by omega)]

/-- Equal bytes make equal canonical lists. -/
theorem Memory.ext_of_read {lo : Nat} {m m' : Memory} (h : Memory.wfFrom lo m = true) (h' : Memory.wfFrom lo m' = true)
    (hr : ∀ a, m.read a = m'.read a) : m = m' := by
  induction m generalizing m' lo with
  | nil =>
    cases m' with
    | nil => rfl
    | cons p m' =>
      have hp := Memory.wfFrom_cons.1 h'
      have := hr p.1
      simp only [Memory.read_nil, Memory.read_cons, if_true] at this
      exact absurd this.symm hp.2.2.1
  | cons p m ih =>
    have hp := Memory.wfFrom_cons.1 h
    cases m' with
    | nil =>
      have := hr p.1
      simp only [Memory.read_nil, Memory.read_cons, if_true] at this
      exact absurd this hp.2.2.1
    | cons q m' =>
      have hq := Memory.wfFrom_cons.1 h'
      have hp1 := hr p.1
      have hq1 := hr q.1
      simp only [Memory.read_cons, if_true] at hp1 hq1
      have hpq : p.1 = q.1 := by
        rcases Nat.lt_trichotomy p.1 q.1 with hlt | heq | hlt
        · rw [if_neg (by omega), Memory.read_below hq.2.2.2 (by omega)] at hp1
          exact absurd hp1 hp.2.2.1
        · exact heq
        · rw [if_neg (by omega), Memory.read_below hp.2.2.2 (by omega)] at hq1
          exact absurd hq1.symm hq.2.2.1
      rw [if_pos hpq.symm] at hp1
      have htail : m = m' := by
        refine ih hp.2.2.2 (hpq ▸ hq.2.2.2) fun a => ?_
        by_cases ha : p.1 = a
        · rw [Memory.read_below hp.2.2.2 (by omega), Memory.read_below hq.2.2.2 (by omega)]
        · have := hr a
          rwa [Memory.read_cons, Memory.read_cons, if_neg ha, if_neg (by omega)] at this
      rw [htail, Prod.ext hpq hp1]

/-- `CLR`'s `MemWrite(0, 10, zeros)` (R120) leaves the cleared buffer. -/
theorem Memory.write_zeros_eq_cleared {m : Memory} (h : m.wf = true) :
    m.writeBytes 0 (List.replicate 10 0) = Memory.cleared := by
  refine Memory.ext_of_read (Memory.wf_writeBytes h (by simp)) rfl fun a => ?_
  rw [Memory.read_writeBytes h (by simp), if_neg (by omega)]
  by_cases ha : a < 10
  · simp only [List.getElem?_replicate, Nat.sub_zero, if_pos ha, Option.getD_some]; rfl
  · simp only [List.getElem?_replicate, Nat.sub_zero, if_neg ha, Option.getD_none]
    exact Memory.read_outside h (by omega)

end Sys2Proof.Machine
end

