-- ==== Sys2Proof/Laws/State.lean ====
section
/-! SUPPORT. What each update of the state leaves in each field. -/

namespace Sys2Proof.Machine

@[simp] theorem State.answered_blk (s : State) (b : Block) (r : Response) : (s.answered b r).blk = b := rfl
@[simp] theorem State.answered_inputs (s : State) (b : Block) (r : Response) : (s.answered b r).inputs = s.inputs := rfl
@[simp] theorem State.answered_rsps (s : State) (b : Block) (r : Response) : (s.answered b r).rsps = s.rsps ++ [r] := rfl

@[simp] theorem Block.noteFault_crc (b : Block) (f : FaultCode) : (b.noteFault f).crc = b.crc := rfl
@[simp] theorem Block.noteFault_len (b : Block) (f : FaultCode) : (b.noteFault f).len = b.len := rfl
@[simp] theorem Block.noteFault_vok (b : Block) (f : FaultCode) : (b.noteFault f).vok = b.vok := rfl
@[simp] theorem Block.noteFault_fb (b : Block) (f : FaultCode) : (b.noteFault f).fb = b.fb := rfl
@[simp] theorem Block.noteFault_err (b : Block) (f : FaultCode) :
    (b.noteFault f).err = if b.err = okCode then f.code else b.err := rfl

@[simp] theorem applyReset_blk (s : State) : (applyReset s).blk = Block.reset := rfl
@[simp] theorem applyReset_inputs (s : State) : (applyReset s).inputs = s.inputs := rfl
@[simp] theorem applyReset_rsps (s : State) : (applyReset s).rsps = s.rsps := rfl

@[simp] theorem State.withFetchWord_blk (s : State) (nbits w : Nat) : (s.withFetchWord nbits w).blk = s.blk := rfl
@[simp] theorem State.withFetchWord_rsps (s : State) (nbits w : Nat) : (s.withFetchWord nbits w).rsps = s.rsps := rfl
@[simp] theorem State.withFetchWord_inputs (s : State) (nbits w : Nat) :
    (s.withFetchWord nbits w).inputs = .command (BitVec.ofNat 16 (w % 2 ^ nbits)) :: s.inputs := rfl

@[simp] theorem Block.reset_crc : Block.reset.crc = 0xFFFF := rfl
@[simp] theorem Block.reset_len : Block.reset.len = 0 := rfl
@[simp] theorem Block.reset_vok : Block.reset.vok = false := rfl
@[simp] theorem Block.reset_err : Block.reset.err = 0 := rfl
@[simp] theorem Block.reset_fb : Block.reset.fb = [] := rfl

end Sys2Proof.Machine
end

