-- ==== Sys2Proof/Laws/Ops.lean ====
section
/-! SUPPORT. For each shared operation, everything it can do, said once. -/

namespace Sys2Proof.Machine

/-- `respond` always answers a next state: block `b`, one response `(OK, v)` more, the inputs untouched. -/
theorem respond_eq (v : Word32) (b : Block) (s : State) : respond v b s = .next (s.answered b ⟨0, v⟩) := rfl

theorem respond_next {v : Word32} {b : Block} {s t : State} (h : respond v b s = .next t) :
    t = s.answered b ⟨0, v⟩ := by
  injection h with h; exact h.symm

/-- `raise` always answers a next state: only `ERR` may change, one response `(F, 0)` more. -/
theorem raise_eq (f : FaultCode) (s : State) : raise f s = .next (s.answered (s.blk.noteFault f) ⟨f.code, 0⟩) := rfl

theorem raise_next {f : FaultCode} {s t : State} (h : raise f s = .next t) :
    t = s.answered (s.blk.noteFault f) ⟨f.code, 0⟩ := by
  injection h with h; exact h.symm

/-- No fault code is the status `OK`, and none is above 4. -/
theorem FaultCode.code_bounds (f : FaultCode) : f.code ≠ okCode ∧ f.code.toNat ≤ 4 := by
  cases f <;> decide

@[simp] theorem within_of_le {addr n : Nat} {r : Result} (h : addr + n ≤ 10) : within addr n r = r := if_pos h

@[simp] theorem within_of_gt {addr n : Nat} {r : Result} (h : 10 < addr + n) : within addr n r = .fault .bufferBounds :=
  if_neg (Nat.not_le.2 h)

/-- `within` answers a next state only inside the buffer, and then its argument's. -/
theorem within_next {addr n : Nat} {r : Result} {t : State} (h : within addr n r = .next t) :
    addr + n ≤ 10 ∧ r = .next t := by
  by_cases hle : addr + n ≤ 10
  · rw [within_of_le hle] at h; exact ⟨hle, h⟩
  · rw [within_of_gt (Nat.not_le.1 hle)] at h; cases h

/-- A typed read does one of three things: `MALFORMED`, `UNVERIFIED`, or its argument on a verified response. -/
theorem typedRead_cases (s : State) (r : Result) :
    (s.blk.len.toNat < 8 ∧ typedRead s r = raise .malformed s) ∨
    (8 ≤ s.blk.len.toNat ∧ s.blk.vok = false ∧ typedRead s r = raise .unverified s) ∨
    (8 ≤ s.blk.len.toNat ∧ s.blk.vok = true ∧ typedRead s r = r) := by
  unfold typedRead
  by_cases hl : s.blk.len.toNat < 8
  · exact .inl ⟨hl, if_pos hl⟩
  · rw [if_neg (show ¬ s.blk.len.toNat < Config.rspLen from hl)]
    cases hv : s.blk.vok with
    | false => exact .inr (.inl ⟨by omega, rfl, if_pos rfl⟩)
    | true => exact .inr (.inr ⟨by omega, rfl, if_neg (by simp)⟩)

theorem execWord_command {w : Word16} {i : Instr} (h : decode w = .command i) (s : State) :
    execWord w s = exec i s := by
  simp [execWord, h]

theorem execWord_illegal {w : Word16} {why : Illegal} (h : decode w = .illegal why) (s : State) :
    execWord w s = raise .illegal s := by
  simp [execWord, h]

/-- A command word either runs the instruction it decodes to or faults `ILLEGAL`. -/
theorem execWord_cases (w : Word16) (s : State) :
    (∃ i, decode w = .command i ∧ execWord w s = exec i s) ∨
    (∃ why, decode w = .illegal why ∧ execWord w s = raise .illegal s) := by
  cases h : decode w with
  | command i => exact .inl ⟨i, rfl, execWord_command h s⟩
  | illegal why => exact .inr ⟨why, rfl, execWord_illegal h s⟩

theorem step_idle {s : State} (h : s.inputs = []) : step s = .next s := by
  simp [step, h]

theorem step_word {s : State} {w : Word16} {rest : List HostInput} (h : s.inputs = .command w :: rest) :
    step s = execWord w { s with inputs := rest } := by
  simp [step, h]

theorem step_rst {s : State} {rest : List HostInput} (h : s.inputs = .reset :: rest) :
    step s = .next (applyReset { s with inputs := rest }) := by
  simp [step, h]

/-- A step does one of three things: nothing, a command word, a reset. -/
theorem step_cases (s : State) :
    (s.inputs = [] ∧ step s = .next s) ∨
    (∃ w rest, s.inputs = .command w :: rest ∧ step s = execWord w { s with inputs := rest }) ∨
    (∃ rest, s.inputs = .reset :: rest ∧ step s = .next (applyReset { s with inputs := rest })) := by
  rcases h : s.inputs with _ | ⟨w | _, rest⟩
  · exact .inl ⟨rfl, step_idle h⟩
  · exact .inr (.inl ⟨w, rest, rfl, step_word h⟩)
  · exact .inr (.inr ⟨rest, rfl, step_rst h⟩)

end Sys2Proof.Machine
end

