-- ==== Sys2Proof/Laws/Exec.lean ====
section
/-! SUPPORT. What each command does when its checks pass, and everything a command can do, said once. -/

namespace Sys2Proof.Machine

/-- The running register after the first `n` bytes of the buffer (R78, R79, R94). -/
def Block.crcOf (b : Block) (n : Nat) : Word16 := crcBytes Config.crcInit (b.fb.readBytes 0 n)

/-- The two bytes at `n` are the code of the `n` bytes before them (R80). -/
def Block.matchAt (b : Block) (n : Nat) : Bool := codeMatches (b.fb.readBytes 0 n) (b.fb.read n) (b.fb.read (n + 1))

/-- The block after a `PUSH` that is not refused (R90). -/
def Block.pushed (b : Block) (d : Byte) : Block :=
  { b with len := b.len + 1, vok := false, fb := b.fb.write b.len.toNat d }

/-- The block after a `SEAL` that is not refused (R94). -/
def Block.sealed (b : Block) : Block :=
  { b with crc := b.crcOf 8, len := 10, vok := false, fb := b.fb.writeBytes 8 (codeBytes (codeOf (b.crcOf 8))) }

theorem toNat_len_succ {n : Nibble} (h : n.toNat < 10) : (n + 1).toNat = n.toNat + 1 := by
  rw [BitVec.toNat_add, show (1 : Nibble).toNat = 1 from rfl]; omega

theorem exec_push_ok {d : Byte} {s : State} (h : s.blk.len.toNat < 10) :
    exec (.push d) s = respond (lenVal (s.blk.len + 1)) (s.blk.pushed d) s := by
  have h10 : ¬ s.blk.len = 10 := fun he => by rw [he] at h; exact absurd h (by decide)
  show execPush d s = _
  rw [execPush, if_neg h10, within_of_le (by omega)]; rfl

theorem exec_push_full {d : Byte} {s : State} (h : s.blk.len = 10) : exec (.push d) s = raise .overflow s := if_pos h

theorem exec_push_out {d : Byte} {s : State} (h : 10 < s.blk.len.toNat) : exec (.push d) s = .fault .bufferBounds := by
  have h10 : ¬ s.blk.len = 10 := fun he => by rw [he] at h; exact absurd h (by decide)
  show execPush d s = _
  rw [execPush, if_neg h10, within_of_gt (by omega)]

theorem exec_crcf_ok {n : Nibble} {s : State} (h1 : n.toNat ≤ 10) (h2 : n.toNat ≤ s.blk.len.toNat) :
    exec (.crcf n) s = respond (codeVal (codeOf (s.blk.crcOf n.toNat))) { s.blk with crc := s.blk.crcOf n.toNat } s := by
  show execCrcf n s = _
  rw [execCrcf, if_neg (show ¬ Config.countMax < n.toNat from Nat.not_lt.2 h1), if_neg (Nat.not_lt.2 h2), within_of_le (by omega)]; rfl

theorem exec_crcf_short {n : Nibble} {s : State} (h1 : n.toNat ≤ 10) (h2 : s.blk.len.toNat < n.toNat) :
    exec (.crcf n) s = raise .malformed s := by
  show execCrcf n s = _
  rw [execCrcf, if_neg (show ¬ Config.countMax < n.toNat from Nat.not_lt.2 h1), if_pos h2]

theorem exec_seal_ok {s : State} (h : s.blk.len = 8) :
    exec .sealReq s = respond (codeVal (codeOf (s.blk.crcOf 8))) s.blk.sealed s := by
  show execSeal s = _
  rw [execSeal, if_pos h, within_of_le (by decide)]; rfl

theorem exec_seal_malformed {s : State} (h : s.blk.len ≠ 8) : exec .sealReq s = raise .malformed s := if_neg h

theorem exec_vrfy_ok {k : FrameKind} {s : State} (h1 : kindMinLen k ≤ s.blk.len.toNat)
    (h2 : kindDataLen k s.blk.len.toNat + 2 ≤ 10) :
    exec (.vrfy k) s =
      respond (boolVal (s.blk.matchAt (kindDataLen k s.blk.len.toNat)))
        { s.blk with
          crc := s.blk.crcOf (kindDataLen k s.blk.len.toNat)
          vok := vokAfterVerify k (s.blk.matchAt (kindDataLen k s.blk.len.toNat)) } s := by
  show execVrfy k s = _
  rw [execVrfy, if_neg (Nat.not_lt.2 h1)]
  simp only []
  rw [within_of_le (by omega)]; rfl

theorem exec_vrfy_short {k : FrameKind} {s : State} (h : s.blk.len.toNat < kindMinLen k) :
    exec (.vrfy k) s = raise .malformed s := if_pos h

/-- Only `VRFY 2` can ask for bytes outside the buffer, and only at a fill level no run reaches. -/
theorem exec_vrfy_out {k : FrameKind} {s : State} (h1 : kindMinLen k ≤ s.blk.len.toNat)
    (h2 : 10 < kindDataLen k s.blk.len.toNat + 2) :
    k = .gen ∧ 10 < s.blk.len.toNat ∧ exec (.vrfy k) s = .fault .bufferBounds := by
  cases k with
  | rsp => exact absurd h2 (by simp [kindDataLen, Config.rspData])
  | req => exact absurd h2 (by simp [kindDataLen, Config.reqData])
  | gen =>
    refine ⟨rfl, by simp only [kindDataLen, Config.codeLen] at h2; omega, ?_⟩
    show execVrfy .gen s = _
    rw [execVrfy, if_neg (Nat.not_lt.2 h1)]
    simp only []
    rw [within_of_gt (by omega)]

/-- `XFLD` is a typed read (R105). -/
theorem exec_xfld_eq (s : State) : exec .xfld s = typedRead s (respond (dataField s.blk.fb) s.blk s) := by
  show execXfld s = _
  rw [execXfld, within_of_le (by decide)]

/-- `XBYT` of a legal index is a typed read (R105). -/
theorem exec_xbyt_eq {i : Nibble} (h : i.toNat ≤ 5) (s : State) :
    exec (.xbyt i) s = typedRead s (respond (byteVal (s.blk.fb.read i.toNat)) s.blk s) := by
  show execXbyt i s = _
  rw [execXbyt, if_neg (show ¬ Config.payloadMax < i.toNat from Nat.not_lt.2 h), within_of_le (by omega)]

theorem exec_rdfb_ok {i : Nibble} {s : State} (h1 : i.toNat ≤ 9) (h2 : i.toNat < s.blk.len.toNat) :
    exec (.rdfb i) s = respond (byteVal (s.blk.fb.read i.toNat)) s.blk s := by
  show execRdfb i s = _
  rw [execRdfb, if_neg (show ¬ Config.bufferMax < i.toNat from Nat.not_lt.2 h1), if_neg (Nat.not_le.2 h2), within_of_le (by omega)]

theorem exec_rdfb_short {i : Nibble} {s : State} (h1 : i.toNat ≤ 9) (h2 : s.blk.len.toNat ≤ i.toNat) :
    exec (.rdfb i) s = raise .malformed s := by
  show execRdfb i s = _
  rw [execRdfb, if_neg (show ¬ Config.bufferMax < i.toNat from Nat.not_lt.2 h1), if_pos h2]

/-- A term that is not well formed raises `ILLEGAL` (log entry 5). -/
theorem exec_illFormed {i : Instr} (h : i.wf = false) (s : State) : exec i s = raise .illegal s := by
  cases i <;> simp only [Instr.wf, decide_eq_false_iff_not, Nat.not_le] at h <;> try (cases h)
  · exact if_pos h
  · exact if_pos h
  · exact if_pos h

/-- What a command that responds `(OK, v)` has done: the block `b` it leaves and the value `v` it gives. -/
inductive Answers : Instr → Block → Block → Word32 → Prop where
  | clr {b} : Answers .clr b Block.reset 0
  | push {b d} : b.len.toNat < 10 → Answers (.push d) b (b.pushed d) (lenVal (b.len + 1))
  | crci {b} : Answers .crci b { b with crc := Config.crcInit } 0
  | crcb {b d} : Answers (.crcb d) b { b with crc := crcByte b.crc d } 0
  | crcr {b} : Answers .crcr b b (codeVal (codeOf b.crc))
  | crcf {b n} : n.toNat ≤ 10 → n.toNat ≤ b.len.toNat →
      Answers (.crcf n) b { b with crc := b.crcOf n.toNat } (codeVal (codeOf (b.crcOf n.toNat)))
  | sealReq {b} : b.len = 8 → Answers .sealReq b b.sealed (codeVal (codeOf (b.crcOf 8)))
  | vrfy {b k} : kindMinLen k ≤ b.len.toNat → kindDataLen k b.len.toNat + 2 ≤ 10 →
      Answers (.vrfy k) b
        { b with
          crc := b.crcOf (kindDataLen k b.len.toNat)
          vok := vokAfterVerify k (b.matchAt (kindDataLen k b.len.toNat)) }
        (boolVal (b.matchAt (kindDataLen k b.len.toNat)))
  | xfld {b} : 8 ≤ b.len.toNat → b.vok = true → Answers .xfld b b (dataField b.fb)
  | xbyt {b i} : i.toNat ≤ 5 → 8 ≤ b.len.toNat → b.vok = true → Answers (.xbyt i) b b (byteVal (b.fb.read i.toNat))
  | rdfb {b i} : i.toNat ≤ 9 → i.toNat < b.len.toNat → Answers (.rdfb i) b b (byteVal (b.fb.read i.toNat))
  | stat {b} : Answers .stat b b (statusView b)

/-- Which fault a command takes, and when (R131 to R137). -/
inductive Faults : Instr → Block → FaultCode → Prop where
  | illFormed {i b} : i.wf = false → Faults i b .illegal
  | push {b d} : b.len = 10 → Faults (.push d) b .overflow
  | crcf {b n} : n.toNat ≤ 10 → b.len.toNat < n.toNat → Faults (.crcf n) b .malformed
  | sealReq {b} : b.len ≠ 8 → Faults .sealReq b .malformed
  | vrfy {b k} : b.len.toNat < kindMinLen k → Faults (.vrfy k) b .malformed
  | xfldShort {b} : b.len.toNat < 8 → Faults .xfld b .malformed
  | xfldUnverified {b} : 8 ≤ b.len.toNat → b.vok = false → Faults .xfld b .unverified
  | xbytShort {b i} : i.toNat ≤ 5 → b.len.toNat < 8 → Faults (.xbyt i) b .malformed
  | xbytUnverified {b i} : i.toNat ≤ 5 → 8 ≤ b.len.toNat → b.vok = false → Faults (.xbyt i) b .unverified
  | rdfb {b i} : i.toNat ≤ 9 → b.len.toNat ≤ i.toNat → Faults (.rdfb i) b .malformed

/-- Everything an instruction can do: answer, take a fault, or stop outside the buffer at a fill level no run reaches. -/
theorem exec_cases (i : Instr) (s : State) :
    (∃ b v, Answers i s.blk b v ∧ exec i s = respond v b s) ∨
    (∃ f, Faults i s.blk f ∧ exec i s = raise f s) ∨
    (10 < s.blk.len.toNat ∧ exec i s = .fault .bufferBounds) := by
  cases i with
  | clr => exact .inl ⟨_, _, .clr, rfl⟩
  | push d =>
    rcases Nat.lt_trichotomy s.blk.len.toNat 10 with h | h | h
    · exact .inl ⟨_, _, .push h, exec_push_ok h⟩
    · have h' : s.blk.len = 10 := BitVec.eq_of_toNat_eq h
      exact .inr (.inl ⟨_, .push h', exec_push_full h'⟩)
    · exact .inr (.inr ⟨h, exec_push_out h⟩)
  | crci => exact .inl ⟨_, _, .crci, rfl⟩
  | crcb d => exact .inl ⟨_, _, .crcb, rfl⟩
  | crcr => exact .inl ⟨_, _, .crcr, rfl⟩
  | crcf n =>
    by_cases h1 : n.toNat ≤ 10
    · by_cases h2 : n.toNat ≤ s.blk.len.toNat
      · exact .inl ⟨_, _, .crcf h1 h2, exec_crcf_ok h1 h2⟩
      · exact .inr (.inl ⟨_, .crcf h1 (by omega), exec_crcf_short h1 (by omega)⟩)
    · have hw : (Instr.crcf n).wf = false := decide_eq_false h1
      exact .inr (.inl ⟨_, .illFormed hw, exec_illFormed hw s⟩)
  | sealReq =>
    by_cases h : s.blk.len = 8
    · exact .inl ⟨_, _, .sealReq h, exec_seal_ok h⟩
    · exact .inr (.inl ⟨_, .sealReq h, exec_seal_malformed h⟩)
  | vrfy k =>
    by_cases h1 : kindMinLen k ≤ s.blk.len.toNat
    · by_cases h2 : kindDataLen k s.blk.len.toNat + 2 ≤ 10
      · exact .inl ⟨_, _, .vrfy h1 h2, exec_vrfy_ok h1 h2⟩
      · exact .inr (.inr (exec_vrfy_out h1 (by omega)).2)
    · exact .inr (.inl ⟨_, .vrfy (by omega), exec_vrfy_short (by omega)⟩)
  | xfld =>
    rw [exec_xfld_eq]
    rcases typedRead_cases s (respond (dataField s.blk.fb) s.blk s) with ⟨h, he⟩ | ⟨h1, h2, he⟩ | ⟨h1, h2, he⟩
    · exact .inr (.inl ⟨_, .xfldShort h, he⟩)
    · exact .inr (.inl ⟨_, .xfldUnverified h1 h2, he⟩)
    · exact .inl ⟨_, _, .xfld h1 h2, he⟩
  | xbyt i =>
    by_cases h0 : i.toNat ≤ 5
    · rw [exec_xbyt_eq h0]
      rcases typedRead_cases s (respond (byteVal (s.blk.fb.read i.toNat)) s.blk s) with ⟨h, he⟩ | ⟨h1, h2, he⟩ | ⟨h1, h2, he⟩
      · exact .inr (.inl ⟨_, .xbytShort h0 h, he⟩)
      · exact .inr (.inl ⟨_, .xbytUnverified h0 h1 h2, he⟩)
      · exact .inl ⟨_, _, .xbyt h0 h1 h2, he⟩
    · have hw : (Instr.xbyt i).wf = false := decide_eq_false h0
      exact .inr (.inl ⟨_, .illFormed hw, exec_illFormed hw s⟩)
  | rdfb i =>
    by_cases h0 : i.toNat ≤ 9
    · by_cases h1 : i.toNat < s.blk.len.toNat
      · exact .inl ⟨_, _, .rdfb h0 h1, exec_rdfb_ok h0 h1⟩
      · exact .inr (.inl ⟨_, .rdfb h0 (by omega), exec_rdfb_short h0 (by omega)⟩)
    · have hw : (Instr.rdfb i).wf = false := decide_eq_false h0
      exact .inr (.inl ⟨_, .illFormed hw, exec_illFormed hw s⟩)
  | stat => exact .inl ⟨_, _, .stat, rfl⟩

end Sys2Proof.Machine
end

