-- ==== Sys2Proof/Laws/PerInstr.lean ====
section
/-! SUPPORT. Statements about every instruction as syntax, one lemma per constructor (LAWS.json). -/

namespace Sys2Proof.Laws.EncodesInRow

/-- The word of a well-formed instruction selects its own row of the opcode table, and the row is one of the twelve (R56). -/
def Statement (i : Instr) : Prop := i.wf = true → i.row.selects (encode i) = true ∧ i.row ∈ opcodeTable

theorem clr : Statement .clr := fun _ => by decide
theorem push (d : Byte) : Statement (.push d) := fun _ => by revert d; decide
theorem crci : Statement .crci := fun _ => by decide
theorem crcb (d : Byte) : Statement (.crcb d) := fun _ => by revert d; decide
theorem crcr : Statement .crcr := fun _ => by decide
theorem crcf (n : Nibble) : Statement (.crcf n) := by unfold Statement; revert n; decide
theorem sealReq : Statement .sealReq := fun _ => by decide
theorem vrfy (k : FrameKind) : Statement (.vrfy k) := fun _ => by cases k <;> decide
theorem xfld : Statement .xfld := fun _ => by decide
theorem xbyt (i : Nibble) : Statement (.xbyt i) := by unfold Statement; revert i; decide
theorem rdfb (i : Nibble) : Statement (.rdfb i) := by unfold Statement; revert i; decide
theorem stat : Statement .stat := fun _ => by decide

end Sys2Proof.Laws.EncodesInRow
end

