-- ==== Sys2Proof/Tests/Slice0.lean ====
section
/-! SUPPORT. The model's own tests: expected results are the vectors of spec/95_test_vectors.md and words written from R56;
and, for each statement with hypotheses, a witness that something meets them. -/

namespace Sys2Proof.Tests

open Sys2Proof Sys2Proof.Machine Sys2Proof.Claims

/-! ### Helpers -/

/-- The next state of an outcome, if it is one. -/
def nextOf {σ : Type} (r : Host.Outcome σ Fault Refusal) : Option σ :=
  match r with
  | .next t => some t
  | .fault _ => none
  | .refused _ => none

/-- An outcome that is a next state of a decidable property. -/
theorem next_with {σ : Type} (r : Host.Outcome σ Fault Refusal) (p : σ → Bool) (h : (nextOf r).any p = true) :
    ∃ t, r = .next t ∧ p t = true := by
  cases r with
  | next t => exact ⟨t, rfl, h⟩
  | fault e => cases h
  | refused e => cases h

/-- A buffer filled with these bytes. -/
def bytes (l : List Byte) : Memory := Memory.writeBytes [] 0 l

/-- A reset block whose buffer holds these bytes, each pushed. -/
def loaded (l : List Byte) : Block :=
  { Block.reset with len := BitVec.ofNat 4 l.length, fb := bytes l }

/-- The state of the machine with this block, nothing presented, nothing answered. -/
def on (b : Block) : State := ⟨b, [], []⟩

/-- `S_rsp`, `S_ver`, `S_req`, `S_full` of 95, section 2.8, and `S_rsp` less its last byte. -/
def sRsp : Block := loaded [0x00, 0x06, 0x00, 0x01, 0x86, 0xA0, 0xDD, 0xEB]
def sVer : Block := { sRsp with crc := 0x1422, vok := true }
def sReq : Block := loaded [0x02, 0x3B, 0x03, 0, 0, 0, 0, 0]
def sFull : Block := loaded [0, 1, 2, 3, 4, 5, 6, 7, 8, 9]
def sShort : Block := loaded [0x00, 0x06, 0x00, 0x01, 0x86, 0xA0, 0xDD]
/-- The sealed request of E3. -/
def sSealed : Block := loaded [0x02, 0x3B, 0x03, 0, 0, 0, 0, 0, 0xA9, 0x24]
/-- `S_rsp` with `FB[5] = A1`. -/
def sBad : Block := loaded [0x00, 0x06, 0x00, 0x01, 0x86, 0xA1, 0xDD, 0xEB]

/-- The word answered on a block: the block after it and the response. -/
def ans (w : Word16) (b : Block) : Option (Block × Nibble × Word32) :=
  (nextOf (answer b w)).map fun p => (p.1, p.2.st, p.2.val)

/-! ### WellFormed: one ill-formed term for each check (R56) -/

theorem test_wf_refuses_count_11 : (Instr.crcf 11).wf = false := by decide
theorem test_wf_refuses_payload_index_6 : (Instr.xbyt 6).wf = false := by decide
theorem test_wf_refuses_buffer_index_10 : (Instr.rdfb 10).wf = false := by decide
theorem test_wf_accepts_largest : (Instr.crcf 10).wf = true ∧ (Instr.xbyt 5).wf = true ∧ (Instr.rdfb 9).wf = true := by decide

/-! ### Decoding: words written out from R53 and R56 as `op`, `a`, `d` bits -/

theorem test_decode_clr : decode 0b0000_0000_00000000 = .command .clr := by decide
theorem test_decode_push : decode 0b0001_0000_00111011 = .command (.push 59) := by decide
theorem test_decode_crci : decode 0b0010_0000_00000000 = .command .crci := by decide
theorem test_decode_crcb : decode 0b0011_0000_11111110 = .command (.crcb 254) := by decide
theorem test_decode_crcr : decode 0b0100_0000_00000000 = .command .crcr := by decide
theorem test_decode_crcf : decode 0b0101_1010_00000000 = .command (.crcf 10) := by decide
theorem test_decode_seal : decode 0b0110_0000_00000000 = .command .sealReq := by decide
theorem test_decode_vrfy : decode 0b0111_0000_00000000 = .command (.vrfy .rsp) ∧
    decode 0b0111_0001_00000000 = .command (.vrfy .req) ∧ decode 0b0111_0010_00000000 = .command (.vrfy .gen) := by decide
theorem test_decode_xfld : decode 0b1000_0000_00000000 = .command .xfld := by decide
theorem test_decode_xbyt : decode 0b1001_0101_00000000 = .command (.xbyt 5) := by decide
theorem test_decode_rdfb : decode 0b1010_1001_00000000 = .command (.rdfb 9) := by decide
theorem test_decode_stat : decode 0b1011_0000_00000000 = .command .stat := by decide

/-- The illegal words of 95, V61 to V90. -/
theorem test_decode_illegal :
    ([0x0001, 0x0100, 0x1100, 0x2001, 0x3F00, 0x5B00, 0x5601, 0x7300, 0x8100, 0x9600, 0xAA00, 0xB001, 0xC000, 0xFFFF] :
      List Word16).all (fun w => (decode w).instr? == none) = true := by decide +kernel

/-- A word of the table's numbering is read with the bits from `nbits` up at 0. -/
theorem test_decodeTableWord : decodeTableWord 16 0x103B = some (.push 0x3B) ∧ decodeTableWord 16 0x1100 = none := by decide

/-! ### The checksum (95, sections 2.1, 2.2, 2.3, 2.6) -/

/-- V7, V8. -/
theorem test_crcByte : crcByte 0xFFFF 0x02 = 0x2C95 ∧ crcByte 0x2C95 0x3B = 0x4C58 := by decide +kernel

/-- V12, the published check value: ASCII "123456789". -/
theorem test_compute_check : compute [0x31, 0x32, 0x33, 0x34, 0x35, 0x36, 0x37, 0x38, 0x39] = 0x906E := by decide +kernel

/-- V35, V37: a good frame longer than the buffer, and one with its code bytes swapped. -/
theorem test_verify :
    verify [0x31, 0x32, 0x33, 0x34, 0x35, 0x36, 0x37, 0x38, 0x39, 0x6E, 0x90] 9 (by decide) = true ∧
    verify [0x00, 0x06, 0x44, 0xBB, 0x88, 0x00, 0x49, 0xA4] 6 (by decide) = false := by decide +kernel

/-- V56, V53. -/
theorem test_be32 : be32 0x01 0x02 0x03 0x04 = 0x01020304 ∧ be32 0xFF 0xFF 0xFF 0xFF = 0xFFFFFFFF := by decide

/-! ### One command on a given state (95, section 2.8) -/

/-- V101. -/
theorem test_clr : ans 0x0000 { sVer with err := 2 } = some (Block.reset, 0, 0) := by decide +kernel
/-- V103: `PUSH` at 8 clears `VOK`. -/
theorem test_push : ans 0x1077 sVer =
    some ({ sVer with len := 9, vok := false, fb := sRsp.fb ++ [(8, 0x77)] }, 0, 9) := by decide +kernel
/-- V104. -/
theorem test_push_full : ans 0x10AA sFull = some ({ sFull with err := 3 }, 3, 0) := by decide +kernel
/-- V105. -/
theorem test_crci : ans 0x2000 { sReq with crc := 0x1234 } = some (sReq, 0, 0) := by decide +kernel
/-- V107. -/
theorem test_crcb : ans 0x303B { sReq with crc := 0x2C95 } = some ({ sReq with crc := 0x4C58 }, 0, 0) := by decide +kernel
/-- V108. -/
theorem test_crcr : ans 0x4000 { sReq with crc := 0x6F91 } = some ({ sReq with crc := 0x6F91 }, 0, 0x906E) := by decide +kernel
/-- V111: the residue of a good frame. -/
theorem test_crcf : ans 0x5800 sRsp = some ({ sRsp with crc := 0xF0B8 }, 0, 0x0F47) := by decide +kernel
/-- V112. -/
theorem test_crcf_short : ans 0x5900 sRsp = some ({ sRsp with err := 2 }, 2, 0) := by decide +kernel
/-- V118: `SEAL` on a verified response un-verifies it. -/
theorem test_seal : ans 0x6000 sVer =
    some ({ sVer with crc := 0xF0B8, len := 10, vok := false, fb := sRsp.fb ++ [(8, 0x47), (9, 0x0F)] }, 0, 0x0F47) := by
  decide +kernel
/-- V117. -/
theorem test_seal_full : ans 0x6000 sFull = some ({ sFull with err := 2 }, 2, 0) := by decide +kernel
/-- V119. -/
theorem test_vrfy_good : ans 0x7000 sRsp = some (sVer, 0, 1) := by decide +kernel
/-- V124: `VRFY 2` on a good response answers 1 and clears `VOK`. -/
theorem test_vrfy_generic : ans 0x7200 sVer = some ({ sVer with vok := false }, 0, 1) := by decide +kernel
/-- V126. -/
theorem test_xfld : ans 0x8000 sVer = some (sVer, 0, 0x000186A0) := by decide +kernel
/-- V128: short before unverified. -/
theorem test_xfld_short : ans 0x8000 sShort = some ({ sShort with err := 2 }, 2, 0) := by decide +kernel
/-- V130. -/
theorem test_xbyt : ans 0x9400 sVer = some (sVer, 0, 0x86) := by decide +kernel
/-- V132. -/
theorem test_xbyt_unverified : ans 0x9200 sRsp = some ({ sRsp with err := 4 }, 4, 0) := by decide +kernel
/-- V135: the raw load needs no verification. -/
theorem test_rdfb : ans 0xA700 sRsp = some (sRsp, 0, 0xEB) := by decide +kernel
/-- V136. -/
theorem test_rdfb_short : ans 0xA800 sRsp = some ({ sRsp with err := 2 }, 2, 0) := by decide +kernel
/-- V138. -/
theorem test_stat : ans 0xB000 sVer = some (sVer, 0, 0x14220018) := by decide +kernel
/-- P4, line 14: `ERR` in its field of the view. -/
theorem test_stat_err : ans 0xB000 { sShort with crc := 0xA7D2, err := 4, len := 8 } =
    some ({ sShort with crc := 0xA7D2, err := 4, len := 8 }, 0, 0xA7D20408) := by decide +kernel
/-- V133, V141: `ILLEGAL` before the length check; a second fault does not overwrite `ERR`. -/
theorem test_illegal : ans 0x9600 Block.reset = some ({ Block.reset with err := 1 }, 1, 0) ∧
    ans 0xC123 { sVer with err := 2 } = some ({ sVer with err := 2 }, 1, 0) := by decide +kernel

/-! ### A step, and the ports -/

/-- A word stored with `withFetchWord` is what the next step runs, from the reset state (V102). -/
theorem test_first_step : (nextOf (step (State.reset.withFetchWord 16 0x1002))).map (fun t => (t.blk.len, t.blk.fb, t.inputs)) =
    some (1, [(0, 0x02)], []) := by decide
/-- V150, V151: reset wins over whatever the block holds, and gives no response. -/
theorem test_reset_step : nextOf (step ⟨{ sVer with err := 2 }, [.reset], []⟩) = some State.reset := by decide
/-- R52: with `LAT = 2` the response of `STAT` stands on the ports at the second edge after acceptance, and at no other. -/
theorem test_ports : (nextOf (clockRun (fun _ _ => 2) ⟨Block.reset, .idle, 0⟩
      [⟨false, true, 0xB000⟩, ⟨false, true, 0xB000⟩, ⟨false, false, 0⟩, ⟨false, false, 0⟩])).map
        (fun tr => (tr.events, tr.delivered, tr.last.phase)) =
    some ([.command 0xB000], [⟨0, 0xFFFF0000⟩], .idle) := by decide
/-- R61: `READOUT 2` is `RDFB 0`, `RDFB 1`. -/
theorem test_readout : (Pseudo.readout 2).expand = [.rdfb 0, .rdfb 1] := by decide
/-- R61: operand counts. -/
theorem test_pseudo_counts : (Pseudo.load []).wf = false ∧ (Pseudo.sealreq [1]).wf = false ∧ (Pseudo.readout 11).wf = false ∧
    (Pseudo.compute []).wf = true := by decide

/-! ### Witnesses: what meets the hypotheses of the statements, clause by clause -/

theorem witness_DecodeEncodeRoundTrip : (Instr.crcf 10).wf = true ∧ (Instr.push 0xFF).wf = true := by decide
theorem witness_EncodeDecodeRoundTrip : decode 0xA900 = .command (.rdfb 9) := by decide
theorem witness_IllegalWordsAreExactlyRule57 : decode 0x7300 = .illegal .operandRange := by decide
theorem witness_DecoderAgreesWithOpcodeTable :
    decode 0x5A00 = .command (.crcf 10) ∧ (Instr.crcf 0).row ∈ opcodeTable ∧ (Instr.crcf 0).row.selects 0x5A00 = true := by
  decide
theorem witness_LegalWordsNumber548 : (decode 0xC000).instr? = none := by decide

/-- An illegal word of every opcode of the table, for the clause on the other words of each command. -/
theorem witness_otherWords :
    ([(0, 0x0001), (1, 0x1100), (2, 0x2001), (3, 0x3F00), (4, 0x4001), (5, 0x5B00), (6, 0x6100), (7, 0x7300), (8, 0x8001),
      (9, 0x9600), (10, 0xAA00), (11, 0xB001)] : List (Nat × Word16)).all
        (fun p => p.2.toNat / 4096 == p.1 && (decode p.2).instr? == none) = true := by decide +kernel

theorem witness_CrcBitInBits : (14 < 15 ∧ 14 ≠ 10 ∧ 14 ≠ 3) ∧ (0 < 15 ∧ 0 ≠ 10 ∧ 0 ≠ 3) := by decide
theorem witness_SingleBitErrorsAreDetected : 7 < 8 ∧ 15 < 16 ∧
    3 + 2 ≤ (([0x12] ++ 0x34 :: [0x56]) ++ codeBytes (compute [0x12, 0x35, 0x56]) : List Byte).length := by decide
theorem witness_VerifyRoundTrip : ([] : List Byte).length + 2 ≤ ([] ++ codeBytes (compute []) : List Byte).length := by decide
theorem witness_VerifyComparesCodeAtN : 0 + 2 ≤ ([0x00, 0x00] : List Byte).length := by decide

theorem witness_CrciInitialisesRegister : Block.reset.crc = 0xFFFF ∧
    ∃ t, exec .clr (on sVer) = .next t ∧ (t.blk == Block.reset) = true :=
  ⟨rfl, next_with _ _ (by decide)⟩
theorem witness_CrcrReadsCode :
    sRsp.crc = 0xFFFF ∧ { sRsp with crc := 0x6F91 }.crc = 0x6F91 ∧
    (∃ t, exec (.crcf 10) (on sSealed) = .next t ∧ (t.rsps == [⟨0, 0x0F47⟩]) = true) ∧
    (∃ t, exec .sealReq (on sReq) = .next t ∧ (t.rsps == [⟨0, 0x24A9⟩]) = true) ∧
    (∃ t, exec (.vrfy .rsp) (on sRsp) = .next t ∧ (t.rsps == [⟨0, 1⟩]) = true) ∧
    (∃ t, exec (.vrfy .req) (on sSealed) = .next t ∧ (t.rsps == [⟨0, 1⟩]) = true) ∧
    ∃ t, exec (.vrfy .gen) (on (loaded [0, 0])) = .next t ∧ (t.rsps == [⟨0, 1⟩]) = true :=
  ⟨rfl, rfl, next_with _ _ (by decide +kernel), next_with _ _ (by decide +kernel), next_with _ _ (by decide +kernel),
    next_with _ _ (by decide +kernel), next_with _ _ (by decide +kernel)⟩
theorem witness_CrcfComputesCodeOfPrefix :
    ((10 : Nibble).toNat ≤ 10) ∧ (sShort.len.toNat < (8 : Nibble).toNat) ∧ ((10 : Nibble).toNat ≤ sFull.len.toNat) ∧
    sRsp.len = 8 ∧ firstBytes sRsp 6 = [0x00, 0x06, 0x00, 0x01, 0x86, 0xA0] := by decide
theorem witness_VrfyVerifiesFrame :
    sShort.len.toNat < 8 ∧ (loaded [0, 0, 0, 0, 0, 0, 0, 0, 0]).len.toNat < 10 ∧ (loaded [0]).len.toNat < 2 ∧
    8 ≤ sRsp.len.toNat ∧ 10 ≤ sSealed.len.toNat ∧ 2 ≤ (loaded [0, 0]).len.toNat ∧ sSealed.len.toNat ≤ 10 ∧
    (loaded [0, 0]).len = 2 ∧ firstBytes sRsp 8 = [0x00, 0x06, 0x00, 0x01, 0x86, 0xA0, 0xDD, 0xEB] ∧
    firstBytes sBad 8 = [0x00, 0x06, 0x00, 0x01, 0x86, 0xA1, 0xDD, 0xEB] ∧ sBad.len = 8 := by decide
theorem witness_PushAppendsOneByte :
    sFull.len = 10 ∧ Block.reset.len.toNat < 10 ∧ Block.reset.fb.wf = true ∧
    (loaded [0, 1, 2, 3, 4, 5, 6, 7, 8]).len = 9 ∧ (loaded [0, 1, 2, 3, 4, 5, 6, 7, 8]).fb.wf = true := by decide
theorem witness_RdfbReadsRawByte :
    (9 : Nibble).toNat ≤ 9 ∧ sRsp.len.toNat ≤ (8 : Nibble).toNat ∧ (9 : Nibble).toNat < sFull.len.toNat ∧ Block.reset.len = 0 ∧
    sSealed.len = 10 ∧ firstBytes sSealed 10 = [0x02, 0x3B, 0x03, 0, 0, 0, 0, 0, 0xA9, 0x24] := by decide
theorem witness_SealAppendsCode :
    sShort.len ≠ 8 ∧ sFull.len ≠ 8 ∧ sReq.len = 8 ∧ sReq.fb.wf = true ∧ firstBytes sReq 8 = [0x02, 0x3B, 0x03, 0, 0, 0, 0, 0] := by
  decide
theorem witness_XfldExtractsField :
    sShort.len.toNat < 8 ∧ 8 ≤ sRsp.len.toNat ∧ sRsp.vok = false ∧ sVer.len = 8 ∧ sVer.vok = true ∧
    firstBytes sVer 8 = [0x00, 0x06, 0x00, 0x01, 0x86, 0xA0, 0xDD, 0xEB] := by decide
theorem witness_XbytExtractsPayloadByte :
    (5 : Nibble).toNat ≤ 5 ∧ sShort.len.toNat < 8 ∧ 8 ≤ sRsp.len.toNat ∧ sRsp.vok = false ∧ 8 ≤ sVer.len.toNat ∧ sVer.vok = true := by
  decide
theorem witness_FieldBytesAgree : (5 : Nibble).toNat = 2 + 3 ∧ 8 ≤ sVer.len.toNat ∧
    (∃ t, exec .xfld (on sVer) = .next t ∧ (t.rsps == [⟨0, 0x000186A0⟩]) = true) ∧
    (∃ u, exec (.xbyt 5) (on sVer) = .next u ∧ (u.rsps == [⟨0, 0xA0⟩]) = true) ∧
    ∃ w, exec (.rdfb 5) (on sVer) = .next w ∧ (w.rsps == [⟨0, 0xA0⟩]) = true :=
  ⟨by decide, by decide, next_with _ _ (by decide +kernel), next_with _ _ (by decide +kernel), next_with _ _ (by decide +kernel)⟩

/-- A verified response meets the invariants of R17. -/
theorem sVer_inv : sVer.Inv where
  lenBound := by decide
  errBound := by decide
  verified := fun _ => by decide +kernel
  zeroAbove := by decide
  canonical := by decide

theorem witness_TypedReadsOnlyOfVerifiedFrames : (on sVer).Inv ∧
    (∃ t, exec .xfld (on sVer) = .next t ∧ (t.rsps == [⟨0, 0x000186A0⟩]) = true) ∧
    ∃ t, exec (.xbyt 0) (on sVer) = .next t ∧ (t.rsps == [⟨0, 0⟩]) = true :=
  ⟨sVer_inv, next_with _ _ (by decide +kernel), next_with _ _ (by decide +kernel)⟩
theorem witness_ClrRestoresResetState :
    (∃ t, exec .clr (on sVer) = .next t ∧ (t.blk == Block.reset) = true) ∧
    ∃ t, exec .sealReq (on { sReq with err := 4 }) = .next t ∧ (t.blk.err == 4) = true :=
  ⟨next_with _ _ (by decide), next_with _ _ (by decide +kernel)⟩
theorem witness_StatReadsStatusView :
    (sVer.crc = 0x1422 ∧ sVer.err = 0 ∧ sVer.vok = true ∧ sVer.len = 8) ∧
    ({ sFull with err := 3 }.crc = 0xFFFF ∧ { sFull with err := 3 }.err = 3 ∧ { sFull with err := 3 }.vok = false ∧
      { sFull with err := 3 }.len = 10) := by decide
theorem witness_FaultsArePrecise :
    ∃ t, execWord 0x8000 (on sRsp) = .next t ∧ (t.rsps == [⟨4, 0⟩]) = true := next_with _ _ (by decide)
/-- Each of the five cases of the statement is some word's on some state. -/
theorem witness_FaultCodesAndTheirCommands :
    (∃ t, execWord 0xB000 (on sRsp) = .next t ∧ (t.rsps == [⟨0, 0xFFFF0008⟩]) = true) ∧
    (∃ t, execWord 0xC000 (on sRsp) = .next t ∧ (t.rsps == [⟨1, 0⟩]) = true) ∧
    (∃ t, execWord 0x7100 (on sRsp) = .next t ∧ (t.rsps == [⟨2, 0⟩]) = true) ∧
    (∃ t, execWord 0x1000 (on sFull) = .next t ∧ (t.rsps == [⟨3, 0⟩]) = true) ∧
    ∃ t, execWord 0x9000 (on sRsp) = .next t ∧ (t.rsps == [⟨4, 0⟩]) = true :=
  ⟨next_with _ _ (by decide), next_with _ _ (by decide), next_with _ _ (by decide), next_with _ _ (by decide),
    next_with _ _ (by decide)⟩
theorem witness_FaultPriority :
    decode 0xFFFF = .illegal .reservedOpcode ∧ 5 < (6 : Nibble).toNat ∧ sShort.len.toNat < 8 ∧ (5 : Nibble).toNat ≤ 5 := by decide
theorem witness_ErrKeepsFirstFault :
    (∃ t, exec .clr (on { sVer with err := 2 }) = .next t ∧ (t.rsps == [⟨0, 0⟩]) = true) ∧
    (∃ t, exec .xfld (on { sRsp with err := 2 }) = .next t ∧ (t.rsps == [⟨4, 0⟩]) = true) ∧
    ∃ t, exec .xfld (on sRsp) = .next t ∧ (t.rsps == [⟨4, 0⟩]) = true :=
  ⟨next_with _ _ (by decide), next_with _ _ (by decide), next_with _ _ (by decide)⟩
theorem witness_ErrBlocksNothing : decode 0x7000 ≠ .command .stat ∧
    ∃ t, execWord 0x7000 (on sRsp) = .next t ∧ (t.blk.vok == true) = true :=
  ⟨by decide, next_with _ _ (by decide +kernel)⟩
theorem witness_EveryWordIsAnsweredOnce : sFull.len.toNat ≤ 10 ∧
    ∃ t, execWord 0x10AA (on sFull) = .next t ∧ (t.rsps == [⟨3, 0⟩]) = true :=
  ⟨by decide, next_with _ _ (by decide)⟩
theorem witness_AnswerDependsOnBlockAndWord :
    (∃ t, execWord 0x6000 (on sReq) = .next t ∧ (t.rsps == [⟨0, 0x24A9⟩]) = true) ∧
    (⟨sReq, [.reset], [⟨0, 1⟩]⟩ : State).blk = (on sReq).blk :=
  ⟨next_with _ _ (by decide +kernel), rfl⟩
theorem witness_NonStoringCommandsFrame :
    (∃ t, exec (.vrfy .rsp) (on { sRsp with err := 3 }) = .next t ∧ (t.rsps == [⟨0, 1⟩]) = true) ∧
    ∃ t, exec (.rdfb 9) (on sFull) = .next t ∧ (t.rsps == [⟨0, 9⟩]) = true :=
  ⟨next_with _ _ (by decide +kernel), next_with _ _ (by decide)⟩
theorem witness_StoringCommandsFrame :
    sReq.fb.wf = true ∧ sReq.len ≠ 10 ∧ sReq.len = 8 ∧ { sReq with err := 1 }.err ≠ 0 ∧
    (∃ t, exec (.push 0xFF) (on { sReq with err := 1 }) = .next t ∧ (t.blk.len == 9) = true) ∧
    ∃ t, exec .sealReq (on { sReq with err := 1 }) = .next t ∧ (t.blk.len == 10) = true :=
  ⟨by decide, by decide, by decide, by decide, next_with _ _ (by decide), next_with _ _ (by decide +kernel)⟩
theorem witness_ReadsAreIdempotent :
    (∃ t, exec (.rdfb 9) (on sFull) = .next t ∧ (t.rsps == [⟨0, 9⟩]) = true) ∧
    (∃ t, exec (.xbyt 5) (on sVer) = .next t ∧ (t.rsps == [⟨0, 0xA0⟩]) = true) ∧
    (∃ t, exec .xfld (on sVer) = .next t ∧ (t.rsps == [⟨0, 0x000186A0⟩]) = true) ∧
    (∃ t, exec .crcr (on sVer) = .next t ∧ (t.rsps == [⟨0, 0xEBDD⟩]) = true) ∧
    (∃ t, exec .stat (on sVer) = .next t ∧ (t.rsps == [⟨0, 0x14220018⟩]) = true) ∧
    (∃ t, exec (.crcf 6) (on sRsp) = .next t ∧ (t.rsps == [⟨0, 0xEBDD⟩]) = true) ∧
    ∃ t, exec (.vrfy .req) (on sRsp) = .next t ∧ (t.rsps == [⟨2, 0⟩]) = true :=
  ⟨next_with _ _ (by decide), next_with _ _ (by decide), next_with _ _ (by decide), next_with _ _ (by decide),
    next_with _ _ (by decide), next_with _ _ (by decide +kernel), next_with _ _ (by decide)⟩
theorem witness_VokSetOnlyByPassingVerify :
    (sRsp.vok = false ∧ ∃ t, exec (.vrfy .rsp) (on sRsp) = .next t ∧ (t.blk.vok && t.rsps == [⟨0, 1⟩]) = true) ∧
    (∃ t, exec (.vrfy .req) (on sVer) = .next t ∧ (t.rsps == [⟨2, 0⟩]) = true) ∧
    (∃ t, exec (.push 0) (on sVer) = .next t ∧ (t.rsps == [⟨0, 9⟩]) = true) ∧
    (∃ t, exec .sealReq (on sVer) = .next t ∧ (t.rsps == [⟨0, 0x0F47⟩]) = true) ∧
    (∃ t, exec .clr (on sVer) = .next t ∧ (t.rsps == [⟨0, 0⟩]) = true) ∧
    (∃ t, exec (.vrfy .gen) (on sVer) = .next t ∧ (t.rsps == [⟨0, 1⟩]) = true) ∧
    ∃ t, exec (.vrfy .rsp) (on sBad) = .next t ∧ (t.rsps == [⟨0, 0⟩]) = true :=
  ⟨⟨rfl, next_with _ _ (by decide +kernel)⟩, next_with _ _ (by decide), next_with _ _ (by decide), next_with _ _ (by decide +kernel),
    next_with _ _ (by decide), next_with _ _ (by decide +kernel), next_with _ _ (by decide +kernel)⟩
theorem witness_PushThenReadReturnsByte : (loaded [0, 1, 2, 3, 4, 5, 6, 7, 8]).len.toNat < 10 ∧
    (loaded [0, 1, 2, 3, 4, 5, 6, 7, 8]).fb.wf = true := by decide
theorem witness_StepKeepsInvariant : (⟨sVer, [.command 0x6000], []⟩ : State).Inv ∧
    ∃ t, step ⟨sVer, [.command 0x6000], []⟩ = .next t ∧ (t.blk.len == 10) = true :=
  ⟨sVer_inv, next_with _ _ (by decide +kernel)⟩
theorem witness_RunsNeverStop : (⟨sVer, [.command 0x8000, .command 0xFFFF, .reset], []⟩ : State).Inv := sVer_inv
theorem witness_StepRunsWhatIsPresented :
    decode 0xB000 = .command .stat ∧ decode 0x7300 = .illegal .operandRange ∧
    (⟨sVer, [.command 0xB000], []⟩ : State).inputs = .command 0xB000 :: [] ∧
    (⟨sVer, [.command 0x7300], []⟩ : State).inputs = .command 0x7300 :: [] ∧
    (⟨sVer, [.reset], []⟩ : State).inputs = .reset :: [] ∧ (on sVer).inputs = [] ∧
    decode (BitVec.ofNat 16 0xB000) = .command .stat ∧ 0xB000 < 65536 := by decide
theorem witness_LoadedFrameVerifies : ([1, 2, 3, 4, 5, 6, 7, 8] : List Byte).length ≤ 8 := by decide
theorem witness_SealedRequestIsItsWireBytes : ([0x02, 0x3B, 0x03, 0, 0, 0, 0, 0] : List Byte).length = 8 := by decide
/-- Both outcomes of a checked response occur: the frames of E6 and of the second example of R79. -/
theorem witness_CheckedResponseOpensTypedReads :
    ([0x00, 0x06, 0x00, 0x01, 0x86, 0xA0, 0xDD, 0xEB] : List Byte).length = 8 ∧
    ([0xDD, 0xEB] : List Byte) = codeBytes (compute [0x00, 0x06, 0x00, 0x01, 0x86, 0xA0]) ∧
    ([0xDD, 0xEB] : List Byte) ≠ codeBytes (compute [0x00, 0x06, 0x00, 0x01, 0x86, 0xA1]) := by decide +kernel

/-- Two edges of a run: a word accepted, then a reset. -/
theorem witness_PortsCarryTheStepFunction :
    (⟨sRsp, .idle, 0⟩ : PortState).pending = [] ∧
    (∃ tr, clockRun (fun _ _ => 1) ⟨sRsp, .idle, 0⟩ [⟨false, true, 0xB000⟩, ⟨true, true, 0x0000⟩] = .next tr ∧
      (tr.events == [.command 0xB000, .reset] && tr.delivered == [⟨0, 0xFFFF0008⟩]) = true) ∧
    ∃ tr, clockRun (fun _ _ => 2) ⟨sRsp, .idle, 0⟩ [⟨false, true, 0xB000⟩] = .next tr ∧
      (tr.last.pending == [⟨0, 0xFFFF0008⟩]) = true :=
  ⟨rfl, next_with _ _ (by decide), next_with _ _ (by decide)⟩
/-- Each clause of the statement, at `LAT = 2`: no edge, one edge, two edges after the accepting one. -/
theorem witness_ResponseComesLatCyclesLater :
    (∀ (_ : Nat) (_ : Word16), 1 ≤ 2) ∧ (⟨sRsp, .idle, 0⟩ : PortState).accepts ⟨false, true, 0xB000⟩ = true ∧
    (∃ p, answer sRsp 0xB000 = .next p ∧ (p == (sRsp, ⟨0, 0xFFFF0008⟩)) = true) ∧
    (∃ q, clockEdge (fun _ _ => 2) ⟨sRsp, .idle, 0⟩ ⟨false, true, 0xB000⟩ = .next q ∧
      (q == ⟨sRsp, .busy 1 ⟨0, 0xFFFF0008⟩, 1⟩) = true) ∧
    (0 + 1 < 2 ∧ 0 ≤ 2) ∧ (1 + 1 = 2 ∧ 1 ≤ 2) ∧ 2 ≤ 2 :=
  ⟨fun _ _ => by decide, by decide, next_with _ _ (by decide), next_with _ _ (by decide), by decide, by decide, by decide⟩
theorem witness_PortResetWins : (⟨true, true, 0xB000⟩ : PortIn).rst = true ∧ (⟨false, true, 0xB000⟩ : PortIn).rst = false ∧
    (⟨false, true, 0xB000⟩ : PortIn).cmdValid = true := by decide
theorem witness_ClockEdgesKeepInvariant : (⟨sVer, .inReset, 0⟩ : PortState).blk.Inv := sVer_inv
theorem witness_OutOfBufferAccessStops : 10 < { sFull with len := 11 }.len.toNat := by decide
theorem witness_IllFormedTermsAreIllegal : (Instr.crcf 15).wf = false ∧ (Instr.xbyt 6).wf = false ∧ (Instr.rdfb 10).wf = false := by
  decide
theorem witness_AssembledLinesAreLegal : assembleLine "XBYT 0x5 ; last".toList = .command (.xbyt 5) := by decide

end Sys2Proof.Tests
end

section
/-! The command model outside the buffer (log entry 4). -/

namespace Sys2Proof.Proofs

open Sys2Proof.Machine

/-- `VRFY 2` asks for the two bytes that end at `LEN`, so it leaves the buffer as soon as `LEN` does (R79). -/
theorem exec_vrfy_gen_out {s : State} (h : 10 < s.blk.len.toNat) : exec (.vrfy .gen) s = .fault .bufferBounds := by
  have hmin : kindMinLen .gen ≤ s.blk.len.toNat := by
    simp only [kindMinLen, Config.codeLen]; omega
  have hend : 10 < kindDataLen .gen s.blk.len.toNat + 2 := by
    simp only [kindDataLen, Config.codeLen]; omega
  obtain ⟨-, -, hstop⟩ := exec_vrfy_out hmin hend
  exact hstop

/-- Settles O56: `PUSH` writes at `LEN` and `VRFY 2` reads up to it, both past the ten bytes of the buffer. -/
theorem outOfBufferAccessStops : Obligations.OutOfBufferAccessStops :=
  fun _ hlen => ⟨fun _ => exec_push_out hlen, exec_vrfy_gen_out hlen⟩

end Sys2Proof.Proofs
end

section
/-! What a command that gives a next state has done, and the rule each outcome follows for each item of R10. -/

namespace Sys2Proof.Machine

section Outcomes

variable {i : Instr} {s t : State} {r : Response} {v : Word32}

/-- `CLR` answers in every state, with the reset block (R120). -/
theorem exec_clr_eq (s : State) : exec .clr s = respond 0 Block.reset s := rfl

/-- A command that gives a next state has answered or taken a fault, and nothing else. -/
theorem exec_next (h : exec i s = .next t) :
    (∃ b v, Answers i s.blk b v ∧ t = s.answered b ⟨0, v⟩) ∨
    (∃ f, Faults i s.blk f ∧ t = s.answered (s.blk.noteFault f) ⟨f.code, 0⟩) := by
  rcases exec_cases i s with ⟨b, v, hans, he⟩ | ⟨f, hflt, he⟩ | ⟨-, he⟩ <;> rw [he] at h
  · exact .inl ⟨b, v, hans, respond_next h⟩
  · exact .inr ⟨f, hflt, raise_next h⟩
  · cases h

/-- No command touches what the host will present. -/
theorem exec_next_inputs (h : exec i s = .next t) : t.inputs = s.inputs := by
  rcases exec_next h with ⟨b, v, -, rfl⟩ | ⟨f, -, rfl⟩ <;> rfl

/-- The status `OK` is given by an answering command only. -/
theorem answers_of_ok (h : exec i s = .next t) (hr : t.rsps = s.rsps ++ [⟨0, v⟩]) : Answers i s.blk t.blk v := by
  rcases exec_next h with ⟨b, v', hans, rfl⟩ | ⟨f, -, rfl⟩
  · have hv : v' = v := by simpa using hr
    exact hv ▸ hans
  · have hcode : f.code = 0 := by simpa using congrArg (·.map Response.st) hr
    exact absurd hcode f.code_bounds.1

/-- A status other than `OK` is a fault taken, which leaves everything but `ERR` (R140). -/
theorem faults_of_not_ok (h : exec i s = .next t) (hr : t.rsps = s.rsps ++ [r]) (hst : r.st ≠ 0) :
    ∃ f, Faults i s.blk f ∧ t.blk = s.blk.noteFault f ∧ r.st = f.code := by
  rcases exec_next h with ⟨b, v, -, rfl⟩ | ⟨f, hflt, rfl⟩
  · obtain rfl : ⟨0, v⟩ = r := by simpa using hr
    exact absurd rfl hst
  · obtain rfl : ⟨f.code, 0⟩ = r := by simpa using hr
    exact ⟨f, hflt, rfl, rfl⟩

end Outcomes

/-! ### `ERR` -/

/-- Taking a fault while `ERR` holds one leaves it (R14). -/
theorem Block.noteFault_err_of_ne {b : Block} (f : FaultCode) (h : b.err ≠ 0) : (b.noteFault f).err = b.err :=
  if_neg h

/-- Taking a fault while `ERR` is 0 records it (R14). -/
theorem Block.noteFault_err_of_eq {b : Block} (f : FaultCode) (h : b.err = 0) : (b.noteFault f).err = f.code :=
  if_pos h

/-- An answering command other than `CLR` keeps `ERR`. -/
theorem Answers.err_eq {i : Instr} {b b' : Block} {v : Word32} (h : Answers i b b' v) (hclr : i ≠ .clr) :
    b'.err = b.err := by
  cases h with
  | clr => exact absurd rfl hclr
  | _ => rfl

section Err

variable {i : Instr} {s t : State} {r : Response}

/-- A recorded fault stays under every command but `CLR` (R14). -/
theorem exec_err_kept (h : exec i s = .next t) (hclr : i ≠ .clr) (he : s.blk.err ≠ 0) : t.blk.err = s.blk.err := by
  rcases exec_next h with ⟨b, v, hans, rfl⟩ | ⟨f, -, rfl⟩
  · exact hans.err_eq hclr
  · exact Block.noteFault_err_of_ne f he

/-- While `ERR` is 0 it takes the status of the response, `OK` being 0 (R14, R140). -/
theorem exec_err_recorded (h : exec i s = .next t) (hr : t.rsps = s.rsps ++ [r]) (hclr : i ≠ .clr)
    (he : s.blk.err = 0) : t.blk.err = r.st := by
  by_cases hst : r.st = 0
  · obtain ⟨st, v⟩ := r
    obtain rfl : st = 0 := hst
    exact ((answers_of_ok h hr).err_eq hclr).trans he
  · obtain ⟨f, -, hblk, hcode⟩ := faults_of_not_ok h hr hst
    rw [hblk, hcode, Block.noteFault_err_of_eq f he]

end Err

/-! ### The commands that store -/

section Store

variable {b : Block} {a : Nat}

theorem length_codeBytes (c : Word16) : (codeBytes c).length = 2 := rfl

/-- `PUSH` writes the byte at the old `LEN` (R90). -/
theorem Block.read_pushed (d : Byte) (h : b.fb.wf = true) :
    (b.pushed d).fb.read a = if b.len.toNat = a then d else b.fb.read a :=
  Memory.read_write h

/-- `SEAL` writes bytes 8 and 9 only (R94). -/
theorem Block.read_sealed_of_ne (h : b.fb.wf = true) (h8 : a ≠ 8) (h9 : a ≠ 9) : b.sealed.fb.read a = b.fb.read a := by
  rw [Block.sealed, Memory.read_writeBytes h (Nat.le_refl 10)]
  by_cases ha : a < 8
  · exact if_pos ha
  · have hpast : (codeBytes (codeOf (b.crcOf 8))).length ≤ a - 8 := by rw [length_codeBytes]; omega
    rw [if_neg ha, List.getElem?_eq_none hpast, Option.getD_none]

end Store

/-- `PUSH` faults on a full buffer only (R90). -/
theorem Faults.len_of_push {d : Byte} {b : Block} {f : FaultCode} (h : Faults (.push d) b f) : b.len = 10 := by
  cases h with
  | illFormed hwf => cases hwf
  | push hlen => exact hlen

/-- `SEAL` faults unless there are exactly eight bytes (R94). -/
theorem Faults.len_of_seal {b : Block} {f : FaultCode} (h : Faults .sealReq b f) : b.len ≠ 8 := by
  cases h with
  | illFormed hwf => cases hwf
  | sealReq hlen => exact hlen

/-- `PUSH` touches one byte, at `LEN`, and not `CRC` (R20, R90). -/
theorem exec_push_frame {d : Byte} {s t : State} (hwf : s.blk.fb.wf = true) (h : exec (.push d) s = .next t) :
    (∀ a, a ≠ s.blk.len.toNat → t.blk.fb.read a = s.blk.fb.read a) ∧ t.blk.crc = s.blk.crc ∧
    (s.blk.len ≠ 10 → t.blk.err = s.blk.err) := by
  rcases exec_next h with ⟨b, v, hans, rfl⟩ | ⟨f, hflt, rfl⟩
  · cases hans
    refine ⟨fun a ha => ?_, rfl, fun _ => rfl⟩
    rw [State.answered_blk, Block.read_pushed d hwf, if_neg ha.symm]
  · exact ⟨fun _ _ => rfl, rfl, fun hlen => absurd (hflt.len_of_push) hlen⟩

/-- `SEAL` touches the two code bytes of a request (R20, R94). -/
theorem exec_seal_frame {s t : State} (hwf : s.blk.fb.wf = true) (h : exec .sealReq s = .next t) :
    (∀ a, a ≠ 8 → a ≠ 9 → t.blk.fb.read a = s.blk.fb.read a) ∧ (s.blk.len = 8 → t.blk.err = s.blk.err) := by
  rcases exec_next h with ⟨b, v, hans, rfl⟩ | ⟨f, hflt, rfl⟩
  · cases hans
    exact ⟨fun _ => Block.read_sealed_of_ne hwf, fun _ => rfl⟩
  · exact ⟨fun _ _ _ => rfl, fun hlen => absurd hlen (hflt.len_of_seal)⟩

/-! ### `VOK` -/

/-- `VOK` after a verification: only the response check that passes sets it (R13). -/
theorem vokAfterVerify_iff {k : FrameKind} {m : Bool} : vokAfterVerify k m = true ↔ k = .rsp ∧ m = true := by
  simp [vokAfterVerify, and_comm]

/-- A mismatch is answered with 0, so an answer of 0 is a mismatch (R79). -/
theorem boolVal_eq_zero {m : Bool} (h : boolVal m = 0) : m = false := by
  revert h; cases m <;> decide

section Vok

variable {i : Instr} {b b' : Block} {v : Word32}

/-- Only `VRFY 0` with equal codes turns `VOK` on (R13). -/
theorem Answers.passes_of_vok_set (h : Answers i b b' v) (hoff : b.vok = false) (hon : b'.vok = true) :
    i = .vrfy .rsp ∧ b.matchAt 6 = true ∧ v = 1 := by
  cases h with
  | vrfy _ _ =>
    obtain ⟨rfl, hm⟩ := vokAfterVerify_iff.1 hon
    exact ⟨rfl, hm, congrArg boolVal hm⟩
  | clr | push _ | sealReq _ => cases hon
  | _ => exact absurd hon (ne_true_of_eq_false hoff)

/-- The stores, `CLR` and every `VRFY` outcome but a passing response check leave `VOK` at 0 (R13). -/
theorem Answers.vok_cleared (h : Answers i b b' v)
    (hi : (∃ d, i = .push d) ∨ i = .sealReq ∨ i = .clr ∨ ∃ k, i = .vrfy k ∧ (k ≠ .rsp ∨ v = 0)) :
    b'.vok = false := by
  rcases hi with ⟨d, rfl⟩ | rfl | rfl | ⟨k, rfl, hk⟩
  · cases h; rfl
  · cases h; rfl
  · cases h; rfl
  · cases h
    refine eq_false_of_ne_true fun hon => ?_
    obtain ⟨rfl, hm⟩ := vokAfterVerify_iff.1 hon
    rcases hk with hk | hv
    · exact hk rfl
    · exact ne_true_of_eq_false (boolVal_eq_zero hv) hm

end Vok

/-! ### The commands that store nothing -/

section NonStoring

variable {i : Instr} {b b' : Block} {v : Word32}

/-- Without a store and without `CLR` the buffer and its fill level stay (R20). -/
theorem Answers.buffer_eq (h : Answers i b b' v) (hclr : i ≠ .clr) (hpush : ∀ d, i ≠ .push d) (hseal : i ≠ .sealReq) :
    b'.len = b.len ∧ b'.fb = b.fb := by
  cases h with
  | clr => exact absurd rfl hclr
  | push _ => exact absurd rfl (hpush _)
  | sealReq _ => exact absurd rfl hseal
  | _ => exact ⟨rfl, rfl⟩

/-- Of the commands that store nothing only `VRFY` writes `VOK` (R20). -/
theorem Answers.vok_eq (h : Answers i b b' v) (hclr : i ≠ .clr) (hpush : ∀ d, i ≠ .push d) (hseal : i ≠ .sealReq)
    (hvrfy : ∀ k, i ≠ .vrfy k) : b'.vok = b.vok := by
  cases h with
  | clr => exact absurd rfl hclr
  | push _ => exact absurd rfl (hpush _)
  | sealReq _ => exact absurd rfl hseal
  | vrfy _ _ => exact absurd rfl (hvrfy _)
  | _ => rfl

/-- The commands that write `CRC` are `CLR`, `SEAL`, `CRCI`, `CRCB`, `CRCF` and `VRFY` (R20). -/
theorem Answers.crc_eq (h : Answers i b b' v) (hclr : i ≠ .clr) (hseal : i ≠ .sealReq) (hcrci : i ≠ .crci)
    (hcrcb : ∀ d, i ≠ .crcb d) (hcrcf : ∀ n, i ≠ .crcf n) (hvrfy : ∀ k, i ≠ .vrfy k) : b'.crc = b.crc := by
  cases h with
  | clr => exact absurd rfl hclr
  | sealReq _ => exact absurd rfl hseal
  | crci => exact absurd rfl hcrci
  | crcb => exact absurd rfl (hcrcb _)
  | crcf _ _ => exact absurd rfl (hcrcf _)
  | vrfy _ _ => exact absurd rfl (hvrfy _)
  | _ => rfl

end NonStoring

end Sys2Proof.Machine
end

section
/-! The invariants of R17: they hold at reset, and every answer, every fault and every reset keeps them. -/

namespace Sys2Proof.Machine

theorem Block.reset_inv : Block.reset.Inv where
  lenBound := by decide
  errBound := by decide
  verified := fun h => absurd h (by decide)
  zeroAbove := fun _ _ _ => rfl
  canonical := rfl

section Keeps

variable {b : Block}

/-- No invariant speaks of `CRC`. -/
theorem Block.Inv.with_crc (h : b.Inv) (c : Word16) : { b with crc := c }.Inv :=
  ⟨h.lenBound, h.errBound, h.verified, h.zeroAbove, h.canonical⟩

/-- A fault changes `ERR` alone, to a code of at most 4 (R140). -/
theorem Block.Inv.noteFault (h : b.Inv) (f : FaultCode) : (b.noteFault f).Inv where
  lenBound := h.lenBound
  errBound := by
    rw [Block.noteFault_err]
    split
    · exact f.code_bounds.2
    · exact h.errBound
  verified := h.verified
  zeroAbove := h.zeroAbove
  canonical := h.canonical

/-- A pushed byte lies below the new `LEN`, and `VOK` is 0 (R90). -/
theorem Block.Inv.pushed (h : b.Inv) (hlen : b.len.toNat < 10) (d : Byte) : (b.pushed d).Inv where
  lenBound := (toNat_len_succ hlen).trans_le hlen
  errBound := h.errBound
  verified := fun hv => nomatch hv
  zeroAbove := fun a ha hle => by
    have hgt : b.len.toNat + 1 ≤ a := (toNat_len_succ hlen).symm.trans_le hle
    rw [Block.read_pushed d h.canonical, if_neg (by omega)]
    exact h.zeroAbove a ha (by omega)
  canonical := Memory.wf_write h.canonical hlen

/-- A sealed request fills the buffer, and `VOK` is 0 (R94). -/
theorem Block.Inv.sealed (h : b.Inv) : b.sealed.Inv where
  lenBound := Nat.le_refl 10
  errBound := h.errBound
  verified := fun hv => nomatch hv
  zeroAbove := fun _ ha hle => absurd hle (Nat.not_le.2 ha)
  canonical := Memory.wf_writeBytes h.canonical (Nat.le_refl 10)

/-- `VRFY` sets `VOK` only on the comparison the invariant asks for (R79). -/
theorem Block.Inv.verify (h : b.Inv) {k : FrameKind} (hmin : kindMinLen k ≤ b.len.toNat) (c : Word16) :
    { b with crc := c, vok := vokAfterVerify k (b.matchAt (kindDataLen k b.len.toNat)) }.Inv where
  lenBound := h.lenBound
  errBound := h.errBound
  verified := fun hv => by
    obtain ⟨rfl, hm⟩ := vokAfterVerify_iff.1 hv
    exact ⟨hmin, (codeMatches_iff _ _ _).1 hm⟩
  zeroAbove := h.zeroAbove
  canonical := h.canonical

/-- Every answer keeps the invariants. -/
theorem Answers.inv {i : Instr} {b' : Block} {v : Word32} (hans : Answers i b b' v) (h : b.Inv) : b'.Inv := by
  cases hans with
  | clr => exact Block.reset_inv
  | push hlen => exact h.pushed hlen _
  | sealReq _ => exact h.sealed
  | vrfy hmin _ => exact h.verify hmin _
  | crci | crcb | crcf _ _ => exact h.with_crc _
  | crcr | xfld _ _ | xbyt _ _ _ | rdfb _ _ | stat => exact h

end Keeps

section Words

variable {s t : State} {w : Word16}

theorem exec_keeps_inv {i : Instr} (h : s.Inv) (he : exec i s = .next t) : t.Inv := by
  rcases exec_next he with ⟨b, v, hans, rfl⟩ | ⟨f, -, rfl⟩
  · exact hans.inv h
  · exact Block.Inv.noteFault h f

theorem execWord_keeps_inv (h : s.Inv) (he : execWord w s = .next t) : t.Inv := by
  rcases execWord_cases w s with ⟨i, -, hw⟩ | ⟨why, -, hw⟩ <;> rw [hw] at he
  · exact exec_keeps_inv h he
  · rw [raise_next he]
    exact Block.Inv.noteFault h .illegal

/-- With a legal `LEN` every word gives a next state (R12, R51). -/
theorem execWord_next_of_len (w : Word16) (h : s.blk.len.toNat ≤ 10) : ∃ t, execWord w s = .next t := by
  rcases execWord_cases w s with ⟨i, -, hw⟩ | ⟨why, -, hw⟩ <;> rw [hw]
  · rcases exec_cases i s with ⟨b, v, -, he⟩ | ⟨f, -, he⟩ | ⟨hout, -⟩
    · exact ⟨_, he⟩
    · exact ⟨_, he⟩
    · exact absurd h (Nat.not_le.2 hout)
  · exact ⟨_, raise_eq _ s⟩

/-- From a block of the invariants every word has an answer, whose block meets them again. -/
theorem answer_of_inv {b : Block} (w : Word16) (h : b.Inv) : ∃ b' r, answer b w = .next (b', r) ∧ b'.Inv := by
  obtain ⟨t, ht⟩ := execWord_next_of_len (s := ⟨b, [], []⟩) w h.lenBound
  exact ⟨t.blk, _, by rw [answer, ht], execWord_keeps_inv (s := ⟨b, [], []⟩) h ht⟩

end Words

/-! ### What a clock edge does (R52, R161) -/

section Edges

variable {lat : Nat → Word16 → Nat} {p : PortState} {i : PortIn}

theorem clockEdge_rst (h : i.rst = true) : clockEdge lat p i = .next ⟨Block.reset, .inReset, p.edges + 1⟩ :=
  if_pos h

/-- A word is accepted only on an edge without reset (R161). -/
theorem clockEdge_accept {b : Block} {r : Response} (h : p.accepts i = true) (ha : answer p.blk i.cmd = .next (b, r)) :
    clockEdge lat p i = .next ⟨b, .busy (lat p.edges i.cmd - 1) r, p.edges + 1⟩ := by
  have hrst : i.rst = false := by
    simp only [PortState.accepts, Bool.and_eq_true, Bool.not_eq_true'] at h
    exact h.1.1
  simp only [clockEdge, hrst, h, ha, Bool.false_eq_true, if_true, if_false]

theorem clockEdge_pass (hrst : i.rst = false) (h : p.accepts i = false) :
    clockEdge lat p i = .next ⟨p.blk, p.phase.advance, p.edges + 1⟩ := by
  simp only [clockEdge, hrst, h, Bool.false_eq_true, if_false]

end Edges

end Sys2Proof.Machine
end

section
/-! The statements about the state: R13, R14, R17, R20. -/

namespace Sys2Proof.Proofs

open Sys2Proof.Machine Sys2Proof.Claims

/-- Settles O44: a step does nothing, runs a word or resets, and each keeps the invariants. -/
theorem stepKeepsInvariant : Obligations.StepKeepsInvariant := by
  intro s t h hstep
  rcases step_cases s with ⟨-, he⟩ | ⟨w, rest, -, he⟩ | ⟨rest, -, he⟩ <;> rw [he] at hstep
  · cases hstep
    exact h
  · exact execWord_keeps_inv (s := { s with inputs := rest }) h hstep
  · cases hstep
    exact Block.reset_inv

/-- Settles O34: the two rules of `exec_err_kept` and `exec_err_recorded`, and what `CLR` leaves. -/
theorem errKeepsFirstFault : Obligations.ErrKeepsFirstFault := by
  intro i s t r h hr
  refine ⟨?_, exec_err_kept h, exec_err_recorded h hr⟩
  rintro rfl
  rw [exec_clr_eq] at h
  rw [respond_next h, State.answered_blk, Block.reset_err]

/-- Settles O38: an answer of such a command leaves what `Answers` says, a fault leaves all but `ERR`. -/
theorem nonStoringCommandsFrame : Obligations.NonStoringCommandsFrame := by
  intro i s t h hclr hpush hseal
  have herr : ∀ v, t.rsps = s.rsps ++ [⟨0, v⟩] → t.blk.err = s.blk.err :=
    fun v hr => (answers_of_ok h hr).err_eq hclr
  have hkept := exec_err_kept h hclr
  rcases exec_next h with ⟨b, v, hans, rfl⟩ | ⟨f, -, rfl⟩
  · obtain ⟨hlen, hfb⟩ := hans.buffer_eq hclr hpush hseal
    exact ⟨hlen, fun a => congrArg (Memory.read · a) hfb, hans.vok_eq hclr hpush hseal, hans.crc_eq hclr hseal,
      hkept, herr, rfl⟩
  · exact ⟨rfl, fun _ => rfl, fun _ => rfl, fun _ _ _ _ => rfl, hkept, herr, rfl⟩

/-- Settles O39: the two frames, with the rule for `ERR` that every command but `CLR` follows. -/
theorem storingCommandsFrame : Obligations.StoringCommandsFrame := by
  refine ⟨fun d s t hwf h => ?_, fun s t hwf h => ?_⟩
  · obtain ⟨hread, hcrc, herr⟩ := exec_push_frame hwf h
    exact ⟨hread, hcrc, exec_err_kept h nofun, herr, exec_next_inputs h⟩
  · obtain ⟨hread, herr⟩ := exec_seal_frame hwf h
    exact ⟨hread, exec_err_kept h nofun, herr, exec_next_inputs h⟩

/-- The bytes `MemRead` gives from address 0 are the first bytes of the buffer (R8). -/
theorem readBytes_eq_firstBytes (b : Block) (n : Nat) : b.fb.readBytes 0 n = firstBytes b n := by
  apply List.ext_getElem?
  intro i
  rw [Memory.getElem?_readBytes, firstBytes, List.getElem?_map, Nat.zero_add]
  by_cases hi : i < n
  · rw [if_pos hi, List.getElem?_range hi, Option.map_some]
  · rw [if_neg hi, List.getElem?_eq_none (by simpa using hi), Option.map_none]

/-- The comparison `VRFY` makes is the frame check of R80. -/
theorem frameGood_iff_matchAt (b : Block) (n : Nat) : frameGood b n = true ↔ b.matchAt n = true := by
  rw [frameGood, ← readBytes_eq_firstBytes, beq_iff_eq, Block.matchAt, codeMatches_iff]

/-- Settles O41: what the answers do with `VOK`, and that a fault leaves it. -/
theorem vokSetOnlyByPassingVerify : Obligations.VokSetOnlyByPassingVerify := by
  refine ⟨fun i s t h hoff hon => ?_, fun i s t r h hr hst => ?_, fun i s t v h hr hi => (answers_of_ok h hr).vok_cleared hi⟩
  · rcases exec_next h with ⟨b, v, hans, rfl⟩ | ⟨f, -, rfl⟩
    · obtain ⟨hi, hm, rfl⟩ := hans.passes_of_vok_set hoff hon
      exact ⟨hi, (frameGood_iff_matchAt _ _).2 hm, rfl⟩
    · exact absurd hon (ne_true_of_eq_false hoff)
  · obtain ⟨f, -, hblk, -⟩ := faults_of_not_ok h hr hst
    rw [hblk, Block.noteFault_vok]

/-- Settles O55: an edge resets, accepts a word the block answers, or leaves the block. -/
theorem clockEdgesKeepInvariant : Obligations.ClockEdgesKeepInvariant := by
  intro lat p i h
  cases hrst : i.rst with
  | true => exact ⟨_, clockEdge_rst hrst, Block.reset_inv⟩
  | false =>
    cases hacc : p.accepts i with
    | true =>
      obtain ⟨b, r, ha, hb⟩ := answer_of_inv i.cmd h
      exact ⟨_, clockEdge_accept hacc ha, hb⟩
    | false => exact ⟨_, clockEdge_pass hrst hacc, h⟩

/-- Settles O43. -/
theorem resetMeetsInvariant : Obligations.ResetMeetsInvariant :=
  Block.reset_inv

end Sys2Proof.Proofs
end

section
/-! The converse of `exec_cases`: what the checks allow is what the command does. -/

namespace Sys2Proof.Machine

section TypedRead

variable {s : State} {r : Result}

theorem typedRead_short (h : s.blk.len.toNat < 8) : typedRead s r = raise .malformed s := if_pos h

theorem typedRead_unverified (hlen : 8 ≤ s.blk.len.toNat) (hvok : s.blk.vok = false) :
    typedRead s r = raise .unverified s :=
  (if_neg (Nat.not_lt.2 hlen)).trans (if_pos hvok)

theorem typedRead_verified (hlen : 8 ≤ s.blk.len.toNat) (hvok : s.blk.vok = true) : typedRead s r = r :=
  (if_neg (Nat.not_lt.2 hlen)).trans (if_neg (ne_false_of_eq_true hvok))

end TypedRead

section Determined

variable {i : Instr} {s : State} {b : Block} {v : Word32} {f : FaultCode}

/-- A command whose checks pass answers. -/
theorem exec_of_answers (h : Answers i s.blk b v) : exec i s = .next (s.answered b ⟨0, v⟩) := by
  cases h with
  | clr | crci | crcb | crcr | stat => rfl
  | push hlen => exact exec_push_ok hlen
  | crcf hn hlen => exact exec_crcf_ok hn hlen
  | sealReq hlen => exact exec_seal_ok hlen
  | vrfy hmin hend => exact exec_vrfy_ok hmin hend
  | xfld hlen hvok => exact (exec_xfld_eq s).trans (typedRead_verified hlen hvok)
  | xbyt hi hlen hvok => exact (exec_xbyt_eq hi s).trans (typedRead_verified hlen hvok)
  | rdfb hi hlen => exact exec_rdfb_ok hi hlen

/-- A command whose checks fail takes the fault. -/
theorem exec_of_faults (h : Faults i s.blk f) : exec i s = .next (s.answered (s.blk.noteFault f) ⟨f.code, 0⟩) := by
  cases h with
  | illFormed hwf => exact exec_illFormed hwf s
  | push hlen => exact exec_push_full hlen
  | crcf hn hlen => exact exec_crcf_short hn hlen
  | sealReq hlen => exact exec_seal_malformed hlen
  | vrfy hlen => exact exec_vrfy_short hlen
  | xfldShort hlen => exact (exec_xfld_eq s).trans (typedRead_short hlen)
  | xfldUnverified hlen hvok => exact (exec_xfld_eq s).trans (typedRead_unverified hlen hvok)
  | xbytShort hi hlen => exact (exec_xbyt_eq hi s).trans (typedRead_short hlen)
  | xbytUnverified hi hlen hvok => exact (exec_xbyt_eq hi s).trans (typedRead_unverified hlen hvok)
  | rdfb hi hlen => exact exec_rdfb_short hi hlen

end Determined

/-! ### Repeating a command (R38) -/

section Repeat

variable {i : Instr} {s t : State} {b b' : Block} {v : Word32} {r : Response} {f : FaultCode}

/-- The five reads leave the whole block. -/
theorem Answers.blk_eq_of_read (h : Answers i b b' v)
    (hi : (∃ j, i = .rdfb j) ∨ (∃ j, i = .xbyt j) ∨ i = .xfld ∨ i = .crcr ∨ i = .stat) : b' = b := by
  rcases hi with ⟨j, rfl⟩ | ⟨j, rfl⟩ | rfl | rfl | rfl <;> cases h <;> rfl

/-- `CRCF` and `VRFY` start from the initial register and read `FB` and `LEN`, which they leave: the answer stands. -/
theorem Answers.again (h : Answers i b b' v) (hi : (∃ n, i = .crcf n) ∨ ∃ k, i = .vrfy k) : Answers i b' b' v := by
  rcases hi with ⟨n, rfl⟩ | ⟨k, rfl⟩
  · cases h with
    | crcf hn hlen => exact Answers.crcf (b := { b with crc := _ }) hn hlen
  · cases h with
    | vrfy hmin hend => exact Answers.vrfy (b := { b with crc := _, vok := _ }) hmin hend

/-- No check of a command reads `ERR` (R142). -/
theorem Faults.noteFault (h : Faults i b f) (g : FaultCode) : Faults i (b.noteFault g) f := by
  cases h with
  | illFormed hwf => exact .illFormed hwf
  | push hlen => exact .push hlen
  | crcf hn hlen => exact .crcf hn hlen
  | sealReq hlen => exact .sealReq hlen
  | vrfy hlen => exact .vrfy hlen
  | xfldShort hlen => exact .xfldShort hlen
  | xfldUnverified hlen hvok => exact .xfldUnverified hlen hvok
  | xbytShort hi hlen => exact .xbytShort hi hlen
  | xbytUnverified hi hlen hvok => exact .xbytUnverified hi hlen hvok
  | rdfb hi hlen => exact .rdfb hi hlen

/-- `ERR` keeps the first fault, and a noted fault is never 0, so noting another changes nothing (R14). -/
theorem Block.noteFault_noteFault (b : Block) (f g : FaultCode) : (b.noteFault f).noteFault g = b.noteFault f := by
  have hne : (b.noteFault f).err ≠ okCode := by
    rw [Block.noteFault_err]
    split
    · exact f.code_bounds.1
    · assumption
  rw [Block.noteFault, if_neg hne]

/-- `CRCF` or `VRFY` repeated gives the same response and leaves the block. -/
theorem exec_again (hi : (∃ n, i = .crcf n) ∨ ∃ k, i = .vrfy k) (h : exec i s = .next t)
    (hr : t.rsps = s.rsps ++ [r]) : exec i t = .next (t.answered t.blk r) := by
  rcases exec_next h with ⟨b, v, hans, rfl⟩ | ⟨f, hflt, rfl⟩
  · obtain rfl : ⟨0, v⟩ = r := by simpa using hr
    exact exec_of_answers (hans.again hi)
  · obtain rfl : ⟨f.code, 0⟩ = r := by simpa using hr
    rw [exec_of_faults (hflt.noteFault f), State.answered_blk, Block.noteFault_noteFault]

end Repeat

/-! ### Bytes and fields of the buffer (R34, R35) -/

/-- `XFLD` answers on a verified response only, with its data field (R100). -/
theorem Answers.of_xfld {b b' : Block} {v : Word32} (h : Answers .xfld b b' v) :
    b.vok = true ∧ v = dataField b.fb := by
  cases h with
  | xfld _ hvok => exact ⟨hvok, rfl⟩

theorem toNat_be32 (b0 b1 b2 b3 : Byte) :
    (be32 b0 b1 b2 b3).toNat = b0.toNat * 16777216 + b1.toNat * 65536 + b2.toNat * 256 + b3.toNat := by
  rw [be32, BitVec.toNat_ofNat]
  omega

/-- The first byte on the wire is the most significant lane of the data field. -/
theorem extractLsb'_dataField (m : Memory) {j : Nat} (hj : j < 4) :
    (dataField m).extractLsb' (24 - 8 * j) 8 = m.read (2 + j) := by
  apply BitVec.eq_of_toNat_eq
  rw [BitVec.extractLsb'_toNat, Nat.shiftRight_eq_div_pow, dataField, toNat_be32]
  interval_cases j <;> simp only [Nat.reduceMul, Nat.reduceSub, Nat.reduceAdd, Nat.reducePow] <;> omega

end Sys2Proof.Machine
end

section
/-! The statements about the buffer as a memory: R35, R38, R40. -/

namespace Sys2Proof.Proofs

open Sys2Proof.Machine Sys2Proof.Claims

/-- Settles O27: `XFLD` answered, so the checks of `XBYT` and `RDFB` pass as well, and both give the byte of the lane. -/
theorem fieldBytesAgree : Obligations.FieldBytesAgree := by
  intro j i s t u w v hj hi hlen hxfld hr hxbyt hrdfb
  obtain ⟨hvok, rfl⟩ := (answers_of_ok hxfld hr).of_xfld
  cases (exec_of_answers (.xbyt (by omega) hlen hvok)).symm.trans hxbyt
  cases (exec_of_answers (.rdfb (by omega) (by omega))).symm.trans hrdfb
  rw [extractLsb'_dataField s.blk.fb hj, ← hi]
  exact ⟨rfl, rfl⟩

/-- Settles O40: the five reads leave the block, and `CRCF` and `VRFY` find the same buffer again. -/
theorem readsAreIdempotent : Obligations.ReadsAreIdempotent :=
  ⟨fun _ _ _ _ hi h hr => (answers_of_ok h hr).blk_eq_of_read hi, fun _ _ _ _ hi h hr => exec_again hi h hr⟩

/-- Settles O42: `PUSH` writes at the old `LEN`, which lies below the new one, so `RDFB` reads it. -/
theorem pushThenReadReturnsByte : Obligations.PushThenReadReturnsByte := by
  intro d s hlen hwf
  have hbelow : s.blk.len.toNat < (s.blk.pushed d).len.toNat := (toNat_len_succ hlen).symm ▸ Nat.lt_succ_self _
  refine ⟨_, exec_of_answers (.push hlen), ?_⟩
  rw [exec_rdfb_ok (Nat.le_of_lt_succ hlen) hbelow, State.answered_blk, Block.read_pushed d hwf, if_pos rfl]
  rfl

end Sys2Proof.Proofs
end

section
/-! The decoder: what each operand format accepts, and that decoding inverts encoding on the well-formed instructions and on
nothing else (R56 to R58). -/

namespace Sys2Proof

/-! ### The four operand formats (R57 (b), (c)) -/

section Formats

variable {op a : Nibble} {d : Byte} {max : Nat} {i j : Instr}

/-- A decoded word is a command or illegal, not both. -/
theorem exists_illegal_iff {x : Decoded} : (∃ why, x = .illegal why) ↔ ¬ ∃ i, x = .command i := by
  cases x <;> simp

theorem decodeNone_eq_command : decodeNone a d i = .command j ↔ (a = 0 ∧ d = 0) ∧ i = j := by
  rw [decodeNone]
  split <;> simp only [*, Decoded.command.injEq, reduceCtorEq, true_and, false_and]

theorem decodeByte_eq_command : decodeByte a i = .command j ↔ a = 0 ∧ i = j := by
  rw [decodeByte]
  split <;> simp only [*, Decoded.command.injEq, reduceCtorEq, true_and, false_and]

theorem decodeSmall_eq_command : decodeSmall a d max i = .command j ↔ (d = 0 ∧ a.toNat ≤ max) ∧ i = j := by
  rw [decodeSmall]
  split
  · split <;> simp only [*, Decoded.command.injEq, reduceCtorEq, true_and, false_and, and_false]
  · simp only [*, reduceCtorEq, false_and]

/-- The selectors of `VRFY` are the codes of the three frame kinds (R55). -/
theorem exists_kind_code_iff (a : Nibble) : (∃ k : FrameKind, k.code = a) ↔ a.toNat ≤ 2 := by
  constructor
  · rintro ⟨k, rfl⟩
    cases k <;> decide
  · intro h
    have hcases : a = 0 ∨ a = 1 ∨ a = 2 := by revert a; decide
    rcases hcases with rfl | rfl | rfl
    exacts [⟨.rsp, rfl⟩, ⟨.req, rfl⟩, ⟨.gen, rfl⟩]

theorem decodeKind_code (k : FrameKind) : decodeKind k.code 0 = .command (.vrfy k) := by
  cases k <;> rfl

theorem decodeKind_eq_command :
    decodeKind a d = .command j ↔ d = 0 ∧ ∃ k : FrameKind, k.code = a ∧ .vrfy k = j := by
  constructor
  · intro h
    have hd : d = 0 := by
      by_contra hd
      rw [decodeKind, if_neg hd] at h
      cases h
    have ha : a.toNat ≤ 2 := by
      by_contra ha
      rw [decodeKind, if_pos hd] at h
      split at h
      case h_4 => cases h
      all_goals omega
    obtain ⟨k, rfl⟩ := (exists_kind_code_iff a).2 ha
    rw [hd, decodeKind_code] at h
    exact ⟨hd, k, rfl, Decoded.command.inj h⟩
  · rintro ⟨rfl, k, rfl, rfl⟩
    exact decodeKind_code k

/-! A word of a format is illegal when an unused field is not 0 or the operand is too large. -/

theorem decodeNone_illegal_iff : (∃ why, decodeNone a d i = .illegal why) ↔ a.toNat ≠ 0 ∨ d.toNat ≠ 0 := by
  simp [exists_illegal_iff, decodeNone_eq_command, ← BitVec.toNat_inj, imp_iff_not_or]

theorem decodeByte_illegal_iff : (∃ why, decodeByte a i = .illegal why) ↔ a.toNat ≠ 0 := by
  simp [exists_illegal_iff, decodeByte_eq_command, ← BitVec.toNat_inj]

theorem decodeSmall_illegal_iff :
    (∃ why, decodeSmall a d max i = .illegal why) ↔ d.toNat ≠ 0 ∨ max + 1 ≤ a.toNat := by
  simp [exists_illegal_iff, decodeSmall_eq_command, ← BitVec.toNat_inj, imp_iff_not_or]

theorem decodeKind_illegal_iff : (∃ why, decodeKind a d = .illegal why) ↔ d.toNat ≠ 0 ∨ 3 ≤ a.toNat := by
  have hcmd : (∃ j, decodeKind a d = .command j) ↔ d = 0 ∧ a.toNat ≤ 2 := by
    simp [decodeKind_eq_command, ← exists_kind_code_iff]
  rw [exists_illegal_iff, hcmd, ← BitVec.toNat_inj]
  simp [imp_iff_not_or, Nat.succ_le_iff]

/-! What a format accepts is well formed and encodes to the word it was read from. -/

theorem encode_of_decodeNone (h : decodeNone a d i = .command j) (hwf : i.wf = true)
    (henc : encode i = commandWord op 0 0) : j.wf = true ∧ encode j = commandWord op a d := by
  obtain ⟨⟨rfl, rfl⟩, rfl⟩ := decodeNone_eq_command.1 h
  exact ⟨hwf, henc⟩

theorem encode_of_decodeByte (h : decodeByte a i = .command j) (hwf : i.wf = true)
    (henc : encode i = commandWord op 0 d) : j.wf = true ∧ encode j = commandWord op a d := by
  obtain ⟨rfl, rfl⟩ := decodeByte_eq_command.1 h
  exact ⟨hwf, henc⟩

theorem encode_of_decodeSmall (h : decodeSmall a d max i = .command j) (hwf : i.wf = decide (a.toNat ≤ max))
    (henc : encode i = commandWord op a 0) : j.wf = true ∧ encode j = commandWord op a d := by
  obtain ⟨⟨rfl, ha⟩, rfl⟩ := decodeSmall_eq_command.1 h
  exact ⟨hwf.trans (decide_eq_true ha), henc⟩

theorem encode_of_decodeKind (h : decodeKind a d = .command j) :
    j.wf = true ∧ encode j = commandWord 7 a d := by
  obtain ⟨rfl, k, rfl, rfl⟩ := decodeKind_eq_command.1 h
  exact ⟨rfl, rfl⟩

end Formats

/-! ### Decoding and encoding (R58) -/

section RoundTrip

variable {w : Word16} {i : Instr}

/-- The word of a well-formed instruction decodes to it. -/
theorem decode_encode (h : i.wf = true) : decode (encode i) = .command i := by
  cases i with
  | push d | crcb d => simp [encode, decode, decodeByte]
  | crcf n | xbyt n | rdfb n =>
    have hn := of_decide_eq_true h
    simp [encode, decode, decodeSmall, hn]
  | vrfy k => cases k <;> decide
  | clr | crci | crcr | sealReq | xfld | stat => decide

/-- What a word decodes to is well formed and encodes to the word: one format for each of the twelve opcodes. -/
theorem encode_of_decode (h : decode w = .command i) : i.wf = true ∧ encode i = w := by
  rw [← commandWord_fields w] at h ⊢
  generalize fieldOp w = op, fieldA w = a, fieldD w = d at h ⊢
  rw [decode, fieldOp_commandWord, fieldA_commandWord, fieldD_commandWord] at h
  rcases nibble_cases op with
    rfl | rfl | rfl | rfl | rfl | rfl | rfl | rfl | rfl | rfl | rfl | rfl | rfl | rfl | rfl | rfl
  · exact encode_of_decodeNone h rfl rfl
  · exact encode_of_decodeByte h rfl rfl
  · exact encode_of_decodeNone h rfl rfl
  · exact encode_of_decodeByte h rfl rfl
  · exact encode_of_decodeNone h rfl rfl
  · exact encode_of_decodeSmall h rfl rfl
  · exact encode_of_decodeNone h rfl rfl
  · exact encode_of_decodeKind h
  · exact encode_of_decodeNone h rfl rfl
  · exact encode_of_decodeSmall h rfl rfl
  · exact encode_of_decodeSmall h rfl rfl
  · exact encode_of_decodeNone h rfl rfl
  all_goals cases h

/-- The words that decode are the words of the well-formed instructions. -/
theorem decode_eq_command_iff : decode w = .command i ↔ i.wf = true ∧ encode i = w :=
  ⟨encode_of_decode, fun ⟨hwf, henc⟩ => henc ▸ decode_encode hwf⟩

/-- A word that decodes to nothing is illegal. -/
theorem decode_illegal_of_not_command (h : ¬ ∃ i, decode w = .command i) : ∃ why, decode w = .illegal why :=
  exists_illegal_iff.2 h

/-- Two well-formed instructions have different words. -/
theorem encode_injOn : Set.InjOn encode {i | i.wf = true} := by
  intro i hi j hj h
  exact Decoded.command.inj ((decode_encode hi).symm.trans (h ▸ decode_encode hj))

end RoundTrip

end Sys2Proof
end

section
/-! The statements about decoding and encoding: R57, R58. -/

namespace Sys2Proof.Proofs

open Sys2Proof.Machine Sys2Proof.Claims

/-- Settles O1: the decoder reads back the fields `encode` put in, and they pass the checks of the row's format. -/
theorem decodeEncodeRoundTrip : Obligations.DecodeEncodeRoundTrip :=
  fun _ => decode_encode

/-- Settles O2: a format accepts only words whose unused fields are 0, so the fields of the instruction are all of the word. -/
theorem encodeDecodeRoundTrip : Obligations.EncodeDecodeRoundTrip :=
  fun _ _ => encode_of_decode

/-- Taking a fault leaves what R140 says. -/
theorem raise_eq_faultState (f : FaultCode) (s : State) : raise f s = .next (faultState s f.code) := rfl

/-- An illegal word faults `ILLEGAL` in every state (R132). -/
theorem execWord_illegal_eq {w : Word16} {why : Illegal} (h : decode w = .illegal why) (s : State) :
    execWord w s = .next (faultState s 1) :=
  (execWord_illegal h s).trans (raise_eq_faultState .illegal s)

/-- Settles O3: opcode by opcode, the format's own condition is the one R57 lists. -/
theorem illegalWordsAreExactlyRule57 : Obligations.IllegalWordsAreExactlyRule57 := by
  refine ⟨fun w => ?_, fun _ _ s h => execWord_illegal_eq h s⟩
  simp only [← toNat_fieldOp, ← toNat_fieldA, ← toNat_fieldD]
  rw [decode]
  rcases nibble_cases (fieldOp w) with h | h | h | h | h | h | h | h | h | h | h | h | h | h | h | h <;>
    simp [h, decodeNone_illegal_iff, decodeByte_illegal_iff, decodeSmall_illegal_iff, decodeKind_illegal_iff,
      Config.countMax, Config.payloadMax, Config.bufferMax]

end Sys2Proof.Proofs
end

section
/-! The opcode table (R56): which words select a row, and the list of all legal words (R51). -/

namespace Sys2Proof

/-! ### The rows -/

section Rows

variable {name : String} {pattern w : Word16} {max : Nat} {op : Nibble}

theorem selects_iff {r : OpcodeRow} : r.selects w = true ↔ w &&& r.mask = r.pattern ∧ (fieldA w).toNat ≤ r.aMax := by
  simp [OpcodeRow.selects]

/-- A mask keeps or drops each field by itself. -/
theorem fieldOp_and (w m : Word16) : fieldOp (w &&& m) = fieldOp w &&& fieldOp m := BitVec.extractLsb'_and

theorem fieldA_and (w m : Word16) : fieldA (w &&& m) = fieldA w &&& fieldA m := BitVec.extractLsb'_and

theorem fieldD_and (w m : Word16) : fieldD (w &&& m) = fieldD w &&& fieldD m := BitVec.extractLsb'_and

/-- A word under a mask that keeps `op` has the opcode of the pattern. -/
theorem fieldOp_of_and {m : Word16} (hm : fieldOp m = BitVec.allOnes 4)
    (h : w &&& m = commandWord op 0 0) :
    fieldOp w = op := by
  have hop := congrArg fieldOp h
  rwa [fieldOp_and, hm, BitVec.and_allOnes, fieldOp_commandWord] at hop

/-- A row without operand is selected by its pattern alone. -/
theorem eq_of_selects_none (h : OpcodeRow.selects ⟨name, pattern, 0xFFFF, max⟩ w = true) : w = pattern := by
  obtain ⟨hw, -⟩ := selects_iff.1 h
  exact BitVec.and_allOnes.symm.trans hw

/-- A word that selects a row with a byte operand is that row's word of its own `d` (R55). -/
theorem eq_of_selects_byte (h : OpcodeRow.selects ⟨name, commandWord op 0 0, 0xFF00, max⟩ w = true) :
    commandWord op 0 (fieldD w) = w := by
  obtain ⟨hw, -⟩ := selects_iff.1 h
  have ha := congrArg fieldA hw
  rw [fieldA_and, show fieldA 0xFF00 = BitVec.allOnes 4 from rfl, BitVec.and_allOnes, fieldA_commandWord] at ha
  exact word_ext ((fieldOp_commandWord ..).trans (fieldOp_of_and (m := 0xFF00) rfl hw).symm)
    ((fieldA_commandWord ..).trans ha.symm) (fieldD_commandWord ..)

/-- A word that selects a row with a small operand is that row's word of its own `a`, which is in range (R55). -/
theorem eq_of_selects_small (h : OpcodeRow.selects ⟨name, commandWord op 0 0, 0xF0FF, max⟩ w = true) :
    commandWord op (fieldA w) 0 = w ∧ (fieldA w).toNat ≤ max := by
  obtain ⟨hw, hmax⟩ := selects_iff.1 h
  have hd := congrArg fieldD hw
  rw [fieldD_and, show fieldD 0xF0FF = BitVec.allOnes 8 from rfl, BitVec.and_allOnes, fieldD_commandWord] at hd
  exact ⟨word_ext ((fieldOp_commandWord ..).trans (fieldOp_of_and (m := 0xF0FF) rfl hw).symm) (fieldA_commandWord ..)
    ((fieldD_commandWord ..).trans hd.symm), hmax⟩

/-- A word that selects a row is the word of a well-formed instruction of that row. -/
theorem encode_of_selects {i : Instr} (h : i.row.selects w = true) :
    ∃ j : Instr, j.wf = true ∧ j.row = i.row ∧ encode j = w := by
  cases i with
  | clr => exact ⟨.clr, rfl, rfl, (eq_of_selects_none h).symm⟩
  | push _ => exact ⟨.push (fieldD w), rfl, rfl, eq_of_selects_byte (op := 1) h⟩
  | crci => exact ⟨.crci, rfl, rfl, (eq_of_selects_none h).symm⟩
  | crcb _ => exact ⟨.crcb (fieldD w), rfl, rfl, eq_of_selects_byte (op := 3) h⟩
  | crcr => exact ⟨.crcr, rfl, rfl, (eq_of_selects_none h).symm⟩
  | crcf _ =>
    obtain ⟨hw, ha⟩ := eq_of_selects_small (op := 5) h
    exact ⟨.crcf (fieldA w), decide_eq_true ha, rfl, hw⟩
  | sealReq => exact ⟨.sealReq, rfl, rfl, (eq_of_selects_none h).symm⟩
  | vrfy _ =>
    obtain ⟨hw, ha⟩ := eq_of_selects_small (op := 7) h
    obtain ⟨k, hk⟩ := (exists_kind_code_iff _).2 ha
    exact ⟨.vrfy k, rfl, rfl, (congrArg (commandWord 7 · 0) hk).trans hw⟩
  | xfld => exact ⟨.xfld, rfl, rfl, (eq_of_selects_none h).symm⟩
  | xbyt _ =>
    obtain ⟨hw, ha⟩ := eq_of_selects_small (op := 9) h
    exact ⟨.xbyt (fieldA w), decide_eq_true ha, rfl, hw⟩
  | rdfb _ =>
    obtain ⟨hw, ha⟩ := eq_of_selects_small (op := 0xA) h
    exact ⟨.rdfb (fieldA w), decide_eq_true ha, rfl, hw⟩
  | stat => exact ⟨.stat, rfl, rfl, (eq_of_selects_none h).symm⟩

/-- The word of a well-formed instruction selects the instruction's row, which is in the table. -/
theorem row_of_wf {i : Instr} (h : i.wf = true) : i.row.selects (encode i) = true ∧ i.row ∈ opcodeTable := by
  cases i with
  | clr => exact Laws.EncodesInRow.clr h
  | push d => exact Laws.EncodesInRow.push d h
  | crci => exact Laws.EncodesInRow.crci h
  | crcb d => exact Laws.EncodesInRow.crcb d h
  | crcr => exact Laws.EncodesInRow.crcr h
  | crcf n => exact Laws.EncodesInRow.crcf n h
  | sealReq => exact Laws.EncodesInRow.sealReq h
  | vrfy k => exact Laws.EncodesInRow.vrfy k h
  | xfld => exact Laws.EncodesInRow.xfld h
  | xbyt j => exact Laws.EncodesInRow.xbyt j h
  | rdfb j => exact Laws.EncodesInRow.rdfb j h
  | stat => exact Laws.EncodesInRow.stat h

/-- Every row of the table is some instruction's. -/
theorem exists_row_of_mem {r : OpcodeRow} (h : r ∈ opcodeTable) : ∃ i : Instr, i.row = r := by
  simp only [opcodeTable, List.cons_append, List.nil_append, List.mem_cons, List.not_mem_nil, or_false] at h
  rcases h with rfl | rfl | rfl | rfl | rfl | rfl | rfl | rfl | rfl | rfl | rfl | rfl <;> exact ⟨_, rfl⟩

/-- A word that selects a row of the table decodes to a command of that row. -/
theorem decode_of_selects {r : OpcodeRow} (hr : r ∈ opcodeTable) (h : r.selects w = true) :
    ∃ i, decode w = .command i ∧ i.row = r := by
  obtain ⟨i, rfl⟩ := exists_row_of_mem hr
  obtain ⟨j, hwf, hrow, henc⟩ := encode_of_selects h
  exact ⟨j, decode_eq_command_iff.2 ⟨hwf, henc⟩, hrow⟩

end Rows

/-! ### The legal words, listed -/

/-- The values below `n` at width `w`, in order. -/
def valuesBelow (w n : Nat) : List (BitVec w) := (List.range n).map (BitVec.ofNat w)

section Values

variable {w n : Nat}

theorem length_valuesBelow : (valuesBelow w n).length = n := by
  rw [valuesBelow, List.length_map, List.length_range]

theorem mem_valuesBelow {v : BitVec w} : v ∈ valuesBelow w n ↔ v.toNat < n := by
  rw [valuesBelow, List.mem_map]
  constructor
  · rintro ⟨k, hk, rfl⟩
    exact Nat.lt_of_le_of_lt (Nat.mod_le _ _) (List.mem_range.1 hk)
  · exact fun hv => ⟨v.toNat, List.mem_range.2 hv, BitVec.eq_of_toNat_eq (by simp)⟩

theorem nodup_valuesBelow (h : n ≤ 2 ^ w) : (valuesBelow w n).Nodup := by
  refine List.Nodup.map_on (fun x hx y hy hxy => ?_) List.nodup_range
  have hxy' := congrArg BitVec.toNat hxy
  rwa [BitVec.toNat_ofNat, BitVec.toNat_ofNat, Nat.mod_eq_of_lt ((List.mem_range.1 hx).trans_le h),
    Nat.mod_eq_of_lt ((List.mem_range.1 hy).trans_le h)] at hxy'

theorem nodup_map_valuesBelow {f : BitVec w → Instr} (hf : Function.Injective f) (h : n ≤ 2 ^ w) :
    ((valuesBelow w n).map f).Nodup :=
  (nodup_valuesBelow h).map hf

end Values

/-- Every well-formed instruction once: 6 without operand, 256 bytes for `PUSH` and for `CRCB`, and the small operands. -/
def legalInstrs : List Instr := List.flatten
  [[.clr, .crci, .crcr, .sealReq, .xfld, .stat], [.vrfy .rsp, .vrfy .req, .vrfy .gen],
    (valuesBelow 8 256).map .push, (valuesBelow 8 256).map .crcb, (valuesBelow 4 11).map .crcf,
    (valuesBelow 4 6).map .xbyt, (valuesBelow 4 10).map .rdfb]

theorem length_legalInstrs : legalInstrs.length = 548 := by
  simp [legalInstrs, length_valuesBelow]

theorem mem_legalInstrs {i : Instr} : i ∈ legalInstrs ↔ i.wf = true := by
  cases i with
  | push d | crcb d => simp [legalInstrs, Instr.wf, mem_valuesBelow, d.isLt]
  | crcf n | xbyt n | rdfb n =>
    simp [legalInstrs, mem_valuesBelow, Nat.lt_succ_iff]
    exact decide_eq_true_iff.symm
  | vrfy k => cases k <;> simp [legalInstrs, Instr.wf]
  | _ => simp [legalInstrs, Instr.wf]

theorem nodup_legalInstrs : legalInstrs.Nodup := by
  have hpush := nodup_map_valuesBelow (n := 256) (f := .push) (fun _ _ => Instr.push.inj) (by decide)
  have hcrcb := nodup_map_valuesBelow (n := 256) (f := .crcb) (fun _ _ => Instr.crcb.inj) (by decide)
  have hcrcf := nodup_map_valuesBelow (n := 11) (f := .crcf) (fun _ _ => Instr.crcf.inj) (by decide)
  have hxbyt := nodup_map_valuesBelow (n := 6) (f := .xbyt) (fun _ _ => Instr.xbyt.inj) (by decide)
  have hrdfb := nodup_map_valuesBelow (n := 10) (f := .rdfb) (fun _ _ => Instr.rdfb.inj) (by decide)
  rw [legalInstrs, List.nodup_flatten]
  simp [List.disjoint_left, hpush, hcrcb, hcrcf, hxbyt, hrdfb]

/-- The words of the well-formed instructions. -/
def legalWords : List Word16 := legalInstrs.map encode

theorem length_legalWords : legalWords.length = 548 := by
  rw [legalWords, List.length_map, length_legalInstrs]

theorem mem_legalWords {w : Word16} : w ∈ legalWords ↔ ∃ i, decode w = .command i := by
  simp only [legalWords, List.mem_map, mem_legalInstrs, decode_eq_command_iff]

theorem nodup_legalWords : legalWords.Nodup :=
  nodup_legalInstrs.map_on fun _ hi _ hj => encode_injOn (mem_legalInstrs.1 hi) (mem_legalInstrs.1 hj)

end Sys2Proof
end

section
/-! The statements about the opcode table: R51, R56, and the sample words. -/

namespace Sys2Proof.Proofs

open Sys2Proof.Machine Sys2Proof.Claims

/-- Settles O4: a decoded word is the word of an instruction, which selects its row; a word that selects a row is the word of
an instruction of that row; and decoding gives one instruction, so one row. -/
theorem decoderAgreesWithOpcodeTable : Obligations.DecoderAgreesWithOpcodeTable := by
  refine ⟨rfl, fun w i h => ?_, fun w r hr h => decode_of_selects hr h, fun w r r' hr hr' h h' => ?_⟩
  · obtain ⟨hwf, rfl⟩ := encode_of_decode h
    exact (row_of_wf hwf).symm
  · obtain ⟨i, hi, rfl⟩ := decode_of_selects hr h
    obtain ⟨j, hj, rfl⟩ := decode_of_selects hr' h'
    rw [Decoded.command.inj (hi.symm.trans hj)]

/-- Settles O5: the words of the 548 well-formed instructions are different, and no other word decodes. -/
theorem legalWordsNumber548 : Obligations.LegalWordsNumber548 := by
  refine ⟨legalWords, nodup_legalWords, length_legalWords, fun w => mem_legalWords, fun w hw s => ?_⟩
  obtain ⟨why, hwhy⟩ := decode_illegal_of_not_command (mt mem_legalWords.2 hw)
  exact execWord_illegal_eq hwhy s

/-- Settles O6: the decoder evaluates on the fifteen words. -/
theorem sampleWordsDecode : Obligations.SampleWordsDecode := by
  unfold Obligations.SampleWordsDecode
  decide

end Sys2Proof.Proofs
end

section
/-! What a command word and a step do, on any machine around the block (R51, R58). -/

namespace Sys2Proof.Machine

section Words

variable {w : Word16} {s t : State} {r : Response}

/-- The block left and the response given can be read from the state. -/
theorem State.answered_inj {b b' : Block} {r' : Response} (h : s.answered b r = s.answered b' r') : b = b' ∧ r = r' :=
  ⟨congrArg State.blk h, by simpa using congrArg State.rsps h⟩

/-- A word that gives a next state has run an answering command or taken a fault. -/
theorem execWord_next (h : execWord w s = .next t) :
    (∃ i b v, decode w = .command i ∧ Answers i s.blk b v ∧ t = s.answered b ⟨0, v⟩) ∨
    (∃ i f, decode w = .command i ∧ Faults i s.blk f ∧ t = s.answered (s.blk.noteFault f) ⟨f.code, 0⟩) ∨
    (∃ why, decode w = .illegal why ∧ t = s.answered (s.blk.noteFault .illegal) ⟨FaultCode.illegal.code, 0⟩) := by
  rcases execWord_cases w s with ⟨i, hi, hw⟩ | ⟨why, hwhy, hw⟩ <;> rw [hw] at h
  · rcases exec_next h with ⟨b, v, hans, ht⟩ | ⟨f, hflt, ht⟩
    · exact .inl ⟨i, b, v, hi, hans, ht⟩
    · exact .inr (.inl ⟨i, f, hi, hflt, ht⟩)
  · exact .inr (.inr ⟨why, hwhy, raise_next h⟩)

/-- A word gives one response, whose status is at most 4 and whose value is 0 unless the status is `OK` (R54). -/
theorem execWord_answered (h : execWord w s = .next t) :
    ∃ b r, t = s.answered b r ∧ r.st.toNat ≤ 4 ∧ (r.st ≠ 0 → r.val = 0) := by
  rcases execWord_next h with ⟨i, b, v, -, -, rfl⟩ | ⟨i, f, -, -, rfl⟩ | ⟨why, -, rfl⟩
  · exact ⟨_, _, rfl, Nat.zero_le 4, fun hst => absurd rfl hst⟩
  · exact ⟨_, _, rfl, f.code_bounds.2, fun _ => rfl⟩
  · exact ⟨_, _, rfl, FaultCode.illegal.code_bounds.2, fun _ => rfl⟩

/-- On the same block a word leaves the same block and gives the same response, whatever stands beside the block. -/
theorem execWord_same_block {b : Block} (h : execWord w s = .next (s.answered b r)) {s' : State} (hblk : s'.blk = s.blk) :
    execWord w s' = .next (s'.answered b r) := by
  rcases execWord_next h with ⟨i, b', v, hi, hans, he⟩ | ⟨i, f, hi, hflt, he⟩ | ⟨why, hwhy, he⟩ <;>
    obtain ⟨rfl, rfl⟩ := State.answered_inj he
  · rw [execWord_command hi, exec_of_answers (hblk ▸ hans)]
  · rw [execWord_command hi, exec_of_faults (hblk ▸ hflt), hblk]
  · rw [execWord_illegal hwhy, raise_eq, hblk]

/-- What a word does on a state is what `answer` says of its block. -/
theorem answer_of_execWord {b : Block} (h : execWord w s = .next (s.answered b r)) :
    answer s.blk w = .next (b, r) := by
  rw [answer, execWord_same_block h (s' := ⟨s.blk, [], []⟩) rfl]
  rfl

/-- What `answer` says of a block is what a word does on every state with that block. -/
theorem execWord_of_answer {b : Block} (h : answer s.blk w = .next (b, r)) :
    execWord w s = .next (s.answered b r) := by
  rw [answer] at h
  split at h
  · next t' ht =>
    obtain ⟨b', r', rfl, -, -⟩ := execWord_answered ht
    cases h
    exact execWord_same_block ht rfl
  · cases h
  · cases h

end Words

/-- From a state of the invariants a step gives a next state, and one of the invariants again. -/
theorem step_next_of_inv {s : State} (h : s.Inv) : ∃ t, step s = .next t ∧ t.Inv := by
  rcases step_cases s with ⟨-, he⟩ | ⟨w, rest, -, he⟩ | ⟨rest, -, he⟩
  · exact ⟨s, he, h⟩
  · obtain ⟨t, ht⟩ := execWord_next_of_len (s := { s with inputs := rest }) w h.lenBound
    exact ⟨t, he.trans ht, execWord_keeps_inv (s := { s with inputs := rest }) h ht⟩
  · exact ⟨_, he, Block.reset_inv⟩

/-- A run goes on from a next state. -/
theorem run_succ_of_next {s t : State} (h : step s = .next t) (k : Nat) :
    Host.Core.run Sys2Proof.core (k + 1) s = Host.Core.run Sys2Proof.core k t := by
  have hcore : Sys2Proof.core.step s = .next t := h
  simp only [Host.Core.run, hcore]

end Sys2Proof.Machine
end

section
/-! The statements about words, steps and runs: R51, R54, R58, R132. -/

namespace Sys2Proof.Proofs

open Sys2Proof.Machine Sys2Proof.Claims

/-- Settles O36: a legal `LEN` excludes the one stop of the model, and what is left gives one response. -/
theorem everyWordIsAnsweredOnce : Obligations.EveryWordIsAnsweredOnce := by
  intro w s hlen
  obtain ⟨t, ht⟩ := execWord_next_of_len w hlen
  obtain ⟨b, r, rfl, hst, hval⟩ := execWord_answered ht
  exact ⟨_, r, ht, rfl, rfl, hst, hval⟩

/-- Settles O37: no check and no effect of a command looks beside the block. -/
theorem answerDependsOnBlockAndWord : Obligations.AnswerDependsOnBlockAndWord := by
  intro w s t h
  obtain ⟨b, r, rfl, -, -⟩ := execWord_answered h
  exact ⟨r, rfl, answer_of_execWord h, fun _ => execWord_same_block h⟩

/-- Settles O45: by induction on the number of steps, since a step of the invariant leads to a state of the invariant. -/
theorem runsNeverStop : Obligations.RunsNeverStop := by
  intro k
  induction k with
  | zero => exact fun s _ => ⟨s, rfl⟩
  | succ k ih =>
    intro s hs
    obtain ⟨t, hstep, ht⟩ := step_next_of_inv hs
    obtain ⟨u, hu⟩ := ih t ht
    exact ⟨u, (run_succ_of_next hstep k).trans hu⟩

/-- Settles O47: the three cases of a step, and a word presented by `withFetchWord` is the word itself. -/
theorem stepRunsWhatIsPresented : Obligations.StepRunsWhatIsPresented := by
  refine ⟨fun s w rest i hin hi => ?_, fun s w rest why hin hwhy => ?_, fun s rest => step_rst, fun s => step_idle,
    fun s w i hw hi => ?_⟩
  · rw [step_word hin, execWord_command hi]
  · rw [step_word hin, execWord_illegal_eq hwhy]
  · have hin : (s.withFetchWord 16 w).inputs = .command (BitVec.ofNat 16 w) :: s.inputs := by
      rw [State.withFetchWord_inputs, Nat.mod_eq_of_lt (b := 2 ^ 16) hw]
    rw [step_word hin, execWord_command hi]
    rfl

/-- Settles O57: the check of the operand's range comes first. -/
theorem illFormedTermsAreIllegal : Obligations.IllFormedTermsAreIllegal :=
  fun _ s h => (exec_illFormed h s).trans (raise_eq_faultState .illegal s)

end Sys2Proof.Proofs
end

section
/-! Sequences of commands (R40, R61): streaming bytes through `CRC`, and loading a frame into the buffer. -/

namespace Sys2Proof.Machine

open Sys2Proof.Claims Sys2Proof.Proofs

section Sequences

variable {i : Instr} {is : List Instr} {s t : State}

/-- A sequence goes on from a command's next state. -/
theorem execSeq_cons_of_next (h : exec i s = .next t) (is : List Instr) : execSeq (i :: is) s = execSeq is t := by
  rw [execSeq, h]

/-- A sequence goes on from where its first part ends. -/
theorem execSeq_append_of_next (h : execSeq is s = .next t) (js : List Instr) : execSeq (is ++ js) s = execSeq js t := by
  induction is generalizing s with
  | nil =>
    cases h
    rfl
  | cons i is ih =>
    rw [execSeq] at h
    split at h
    · next u hu => exact (execSeq_cons_of_next hu _).trans (ih h)
    · cases h
    · cases h

/-- A sequence of one command is the command. -/
theorem execSeq_singleton (h : exec i s = .next t) : execSeq [i] s = .next t :=
  execSeq_cons_of_next h []

end Sequences

/-- Streaming bytes absorbs them into `CRC` in order and changes nothing else (R76). -/
theorem execSeq_crcb (bs : List Byte) (s : State) :
    execSeq (bs.map .crcb) s = .next
      { blk := { s.blk with crc := crcBytes s.blk.crc bs }, inputs := s.inputs,
        rsps := s.rsps ++ List.replicate bs.length ⟨0, 0⟩ } := by
  induction bs generalizing s with
  | nil => rw [List.length_nil, List.replicate_zero, List.append_nil]; rfl
  | cons d bs ih =>
    rw [List.map_cons, execSeq_cons_of_next (exec_of_answers .crcb), ih, State.answered_rsps, List.append_assoc]
    rfl

/-! ### A loaded buffer -/

/-- The buffer holds exactly these bytes, from address 0 up to `LEN`, in its canonical form. -/
structure Block.Holds (b : Block) (bs : List Byte) : Prop where
  len : b.len.toNat = bs.length
  bytes : firstBytes b bs.length = bs
  canonical : b.fb.wf = true

section Holds

variable {b : Block} {bs : List Byte}

theorem Block.reset_holds : Block.reset.Holds [] := ⟨rfl, rfl, rfl⟩

/-- `PUSH` puts its byte behind the bytes held (R90). -/
theorem Block.Holds.pushed (h : b.Holds bs) (hlen : bs.length < 10) (d : Byte) : (b.pushed d).Holds (bs ++ [d]) where
  len := by
    rw [List.length_append, ← h.len]
    exact toNat_len_succ (h.len ▸ hlen)
  bytes := by
    have hold : (List.range bs.length).map (b.pushed d).fb.read = bs :=
      (List.map_congr_left fun a ha => by
        rw [Block.read_pushed d h.canonical, h.len, if_neg (List.mem_range.1 ha).ne']).trans h.bytes
    rw [List.length_append, List.length_singleton, firstBytes, List.range_succ, List.map_append, hold, List.map_singleton,
      Block.read_pushed d h.canonical, if_pos h.len]
  canonical := Memory.wf_write h.canonical (h.len ▸ hlen)

/-- The two bytes at an address are read behind the bytes below it. -/
theorem firstBytes_add_two (b : Block) (n : Nat) :
    firstBytes b (n + 2) = firstBytes b n ++ [b.fb.read n, b.fb.read (n + 1)] := by
  rw [firstBytes, List.range_succ, List.range_succ, List.append_assoc, List.map_append]
  rfl

/-- A frame held is data and the two bytes behind it. -/
theorem Block.Holds.data_and_code {data c : List Byte} (h : b.Holds (data ++ c)) (hc : c.length = 2) :
    firstBytes b data.length = data ∧ [b.fb.read data.length, b.fb.read (data.length + 1)] = c := by
  have hbytes := h.bytes
  rw [List.length_append, hc, firstBytes_add_two] at hbytes
  exact List.append_inj hbytes (by simp [firstBytes])

/-- The comparison of R80 on a frame held: its last two bytes are the code of its data. -/
theorem Block.Holds.matchAt_eq {data c : List Byte} (h : b.Holds (data ++ c)) (hc : c.length = 2) :
    b.matchAt data.length = decide (c = codeBytes (compute data)) := by
  obtain ⟨hdata, hcode⟩ := h.data_and_code hc
  rw [Bool.eq_iff_iff, ← frameGood_iff_matchAt, frameGood, hdata, hcode, beq_iff_eq, decide_eq_true_iff]

/-- The register after the bytes held is theirs (R72). -/
theorem Block.Holds.crcOf_eq (h : b.Holds bs) : codeOf (b.crcOf bs.length) = compute bs := by
  rw [Block.crcOf, readBytes_eq_firstBytes, h.bytes, compute]

/-- `SEAL` writes the code bytes at 8 and 9 (R94). -/
theorem Block.read_sealed_code (h : b.fb.wf = true) :
    [b.sealed.fb.read 8, b.sealed.fb.read 9] = codeBytes (codeOf (b.crcOf 8)) := by
  rw [Block.sealed, Memory.read_writeBytes h (Nat.le_refl 10), Memory.read_writeBytes h (Nat.le_refl 10)]
  rfl

/-- `SEAL` puts the code bytes behind the eight bytes held (R93, R94). -/
theorem Block.Holds.sealed (h : b.Holds bs) (hlen : bs.length = 8) : b.sealed.Holds (bs ++ codeBytes (compute bs)) where
  len := by
    rw [List.length_append, hlen, length_codeBytes]
    rfl
  bytes := by
    have hold : firstBytes b.sealed 8 = bs := by
      rw [← h.bytes, hlen]
      refine List.map_congr_left fun a ha => ?_
      have ha' := List.mem_range.1 ha
      exact Block.read_sealed_of_ne h.canonical (by omega) (by omega)
    rw [List.length_append, hlen, length_codeBytes, firstBytes_add_two, hold, Block.read_sealed_code h.canonical, ← hlen,
      h.crcOf_eq]
  canonical := Memory.wf_writeBytes h.canonical (Nat.le_refl 10)

/-- The four lanes of the data field are bytes 2 to 5 of the response held (R34, R100). -/
theorem Block.Holds.dataField_lanes (h : b.Holds bs) (hlen : bs.length = 8) :
    [(dataField b.fb).extractLsb' 24 8, (dataField b.fb).extractLsb' 16 8, (dataField b.fb).extractLsb' 8 8,
      (dataField b.fb).extractLsb' 0 8] = (bs.drop 2).take 4 := by
  have lane {j : Nat} (hj : j < 4) := extractLsb'_dataField b.fb hj
  rw [lane (j := 0) (by decide), lane (j := 1) (by decide), lane (j := 2) (by decide), lane (j := 3) (by decide),
    ← h.bytes, hlen]
  rfl

end Holds

/-- Pushing bytes puts them behind the bytes held, as long as they fit. -/
theorem execSeq_push {held bs : List Byte} {s : State} (h : s.blk.Holds held) (hlen : held.length + bs.length ≤ 10) :
    ∃ t, execSeq (bs.map .push) s = .next t ∧ t.blk.Holds (held ++ bs) := by
  induction bs generalizing held s with
  | nil => exact ⟨s, rfl, by rwa [List.append_nil]⟩
  | cons d bs ih =>
    rw [List.length_cons] at hlen
    have hroom : held.length < 10 := by omega
    obtain ⟨t, ht, hold⟩ := ih (s := s.answered (s.blk.pushed d) ⟨0, lenVal (s.blk.len + 1)⟩) (h.pushed hroom d)
      (by rw [List.length_append, List.length_singleton]; omega)
    refine ⟨t, (execSeq_cons_of_next (exec_of_answers (.push (h.len ▸ hroom))) _).trans ht, ?_⟩
    rwa [List.append_assoc] at hold

/-- `LOAD` of up to ten bytes ends with a buffer that holds them, from any state (R61). -/
theorem execSeq_loadSeq {bs : List Byte} (hlen : bs.length ≤ 10) (s : State) :
    ∃ t, execSeq (loadSeq bs) s = .next t ∧ t.blk.Holds bs := by
  obtain ⟨t, ht, hold⟩ := execSeq_push (s := s.answered Block.reset ⟨0, 0⟩) Block.reset_holds
    (bs := bs) (by simpa using hlen)
  exact ⟨t, (execSeq_cons_of_next (exec_of_answers .clr) _).trans ht, hold⟩

/-- `SEAL` of eight bytes held answers with their code (R94). -/
theorem exec_seal_of_holds {bs : List Byte} {s : State} (h : s.blk.Holds bs) (hlen : bs.length = 8) :
    exec .sealReq s = .next (s.answered s.blk.sealed ⟨0, codeVal (compute bs)⟩) := by
  have hlen8 : s.blk.len = 8 := BitVec.eq_of_toNat_eq (h.len.trans hlen)
  rw [exec_of_answers (.sealReq hlen8), ← hlen, h.crcOf_eq]

/-- `VRFY` of a frame held compares its last two bytes with the code of its data (R79). -/
theorem exec_vrfy_of_holds {k : FrameKind} {s : State} {data c : List Byte} (h : s.blk.Holds (data ++ c))
    (hc : c.length = 2) (hend : data.length + 2 ≤ 10) (hmin : kindMinLen k ≤ data.length + 2)
    (hk : kindDataLen k (data.length + 2) = data.length) :
    exec (.vrfy k) s = .next (s.answered
      { s.blk with
        crc := s.blk.crcOf data.length
        vok := vokAfterVerify k (decide (c = codeBytes (compute data))) }
      ⟨0, boolVal (decide (c = codeBytes (compute data)))⟩) := by
  have hlen : s.blk.len.toNat = data.length + 2 := by rw [h.len, List.length_append, hc]
  have hdata : kindDataLen k s.blk.len.toNat = data.length := by rw [hlen, hk]
  have hvrfy := exec_of_answers (s := s) (.vrfy (k := k) (hlen ▸ hmin) (hdata ▸ hend))
  rwa [hdata, h.matchAt_eq hc] at hvrfy

end Sys2Proof.Machine
end

section
/-! The statements about the sequences of R61. -/

namespace Sys2Proof.Proofs

open Sys2Proof.Machine Sys2Proof.Claims

/-- Settles O48: `CRCI` starts the register, the stream absorbs the bytes, and `CRCR` reads the code. -/
theorem streamComputesCode : Obligations.StreamComputesCode := by
  intro bs s
  rw [Pseudo.expand, List.cons_append, execSeq_cons_of_next (exec_of_answers .crci),
    execSeq_append_of_next (execSeq_crcb bs _), execSeq_singleton (exec_of_answers .crcr)]
  refine ⟨_, rfl, rfl, ?_⟩
  simp only [State.answered_rsps, List.append_assoc]
  rfl

/-- Settles O49: the loaded frame is the data and its code, which is what `VRFY 2` looks for at any length. -/
theorem loadedFrameVerifies : Obligations.LoadedFrameVerifies := by
  intro bs s hlen
  have hcode := length_codeBytes (compute bs)
  obtain ⟨t, ht, hold⟩ := execSeq_loadSeq (bs := bs ++ codeBytes (compute bs))
    (by rw [List.length_append, hcode]; omega) s
  have hbytes := hold.bytes
  rw [List.length_append, hcode] at hbytes
  refine ⟨t, ht, hbytes, _, exec_vrfy_of_holds (k := .gen) hold hcode (by omega) (Nat.le_add_left 2 _) rfl, ?_⟩
  rw [State.answered_rsps, decide_eq_true rfl]
  rfl

/-- Settles O50: `SEAL` puts the code behind the eight bytes loaded, and `VRFY 1` finds it there. -/
theorem sealedRequestIsItsWireBytes : Obligations.SealedRequestIsItsWireBytes := by
  intro bs s hlen
  have hcode := length_codeBytes (compute bs)
  obtain ⟨t, ht, hold⟩ := execSeq_loadSeq (hlen.trans_le (by decide)) s
  have hsealed := hold.sealed hlen
  have hbytes := hsealed.bytes
  rw [List.length_append, hlen, hcode] at hbytes
  have hvrfy := exec_vrfy_of_holds (k := .req) (s := t.answered t.blk.sealed ⟨0, codeVal (compute bs)⟩) hsealed hcode
    (by omega) (by rw [hlen]; decide) hlen.symm
  refine ⟨_, t.rsps, (execSeq_append_of_next ht _).trans (execSeq_singleton (exec_seal_of_holds hold hlen)), rfl, rfl, hbytes,
    _, hvrfy, ?_⟩
  rw [State.answered_rsps, decide_eq_true rfl]
  rfl

/-- Settles O51: `VRFY 0` compares the last two bytes loaded with the code of the first six, and `XFLD` is open on `VOK`. -/
theorem checkedResponseOpensTypedReads : Obligations.CheckedResponseOpensTypedReads := by
  intro bs s hlen
  obtain ⟨t, ht, hold⟩ := execSeq_loadSeq (hlen.trans_le (by decide)) s
  have hlen8 : 8 ≤ t.blk.len.toNat := (hold.len.trans hlen).ge
  have hdata : (bs.take 6).length = 6 := by rw [List.length_take, hlen]; rfl
  have hcode : (bs.drop 6).length = 2 := by rw [List.length_drop, hlen]
  have hvrfy := exec_vrfy_of_holds (k := .rsp) (s := t) (by rwa [List.take_append_drop]) hcode (by rw [hdata]; decide)
    (by rw [hdata]; decide) hdata.symm
  refine ⟨_, (execSeq_append_of_next ht _).trans (execSeq_singleton hvrfy), ?_, fun hvok => ?_, fun hvok => ?_⟩
  · rw [State.answered_blk, vokAfterVerify, decide_eq_true (rfl : FrameKind.rsp = .rsp), Bool.and_true]
  · refine ⟨_, exec_of_answers (.xfld ?_ hvok), hold.dataField_lanes hlen⟩
    exact hlen8
  · refine exec_of_faults (.xfldUnverified ?_ hvok)
    exact hlen8

end Sys2Proof.Proofs
end

section
/-! The ports (R50, R52): what one edge does, and that a run of edges is a run of the step function. -/

namespace Sys2Proof.Machine

/-! ### The block on a list of inputs -/

/-- The step function takes a block through these inputs to another block, giving these responses after any earlier ones. -/
def Serves (b : Block) (evs : List HostInput) (b' : Block) (rs : List Response) : Prop :=
  ∀ earlier : List Response, Host.Core.run Sys2Proof.core evs.length (State.mk b evs earlier) =
    .next (State.mk b' [] (earlier ++ rs))

section Serving

variable {b b' b'' : Block} {evs : List HostInput} {r : Response} {rs : List Response} {w : Word16}

theorem Serves.nil (b : Block) : Serves b [] b [] := fun earlier => by
  rw [List.append_nil]
  rfl

theorem Serves.reset (h : Serves Block.reset evs b' rs) : Serves b (.reset :: evs) b' rs := fun earlier =>
  (run_succ_of_next (step_rst rfl) _).trans (h earlier)

theorem Serves.command (ha : answer b w = .next (b', r)) (h : Serves b' evs b'' rs) :
    Serves b (.command w :: evs) b'' (r :: rs) := fun earlier => by
  have hstep : step ⟨b, .command w :: evs, earlier⟩ = .next ⟨b', evs, earlier ++ [r]⟩ :=
    (step_word rfl).trans (execWord_of_answer ha)
  rw [List.append_cons]
  exact (run_succ_of_next hstep _).trans (h (earlier ++ [r]))

end Serving

/-! ### One edge -/

section Edges

variable {lat : Nat → Word16 → Nat} {p q : PortState} {i : PortIn} {is : List PortIn} {tr : PortTrace}

/-- A word is accepted only when no response is due (R52 (c)). -/
theorem pending_of_accepts (h : p.accepts i = true) : p.pending = [] := by
  obtain ⟨blk, phase, edges⟩ := p
  cases phase with
  | idle | inReset => rfl
  | busy left r => simp [PortState.accepts, PortState.ready] at h

/-- What stands on the ports is due. -/
theorem responding_sublist_pending (p : PortState) : p.responding.toList.Sublist p.pending := by
  obtain ⟨blk, phase, edges⟩ := p
  rcases phase with _ | ⟨_ | k, r⟩ | _ <;> simp [PortState.responding, PortState.pending]

/-- When the handshake moves on, a response due is on the ports or still due (R52 (d), (e)). -/
theorem responding_append_advance (p : PortState) (b : Block) (e : Nat) :
    p.responding.toList ++ PortState.pending ⟨b, p.phase.advance, e⟩ = p.pending := by
  obtain ⟨blk, phase, edges⟩ := p
  rcases phase with _ | ⟨_ | k, r⟩ | _ <;> rfl

/-- An edge resets the block, lets it answer a word, or leaves it. -/
theorem clockEdge_next (h : clockEdge lat p i = .next q) :
    (i.rst = true ∧ p.event i = [.reset] ∧ q.blk = Block.reset ∧ q.pending = []) ∨
    (i.rst = false ∧ p.event i = [.command i.cmd] ∧ p.pending = [] ∧
      ∃ r, answer p.blk i.cmd = .next (q.blk, r) ∧ q.pending = [r]) ∨
    (i.rst = false ∧ p.event i = [] ∧ q.blk = p.blk ∧ p.responding.toList ++ q.pending = p.pending) := by
  cases hrst : i.rst with
  | true =>
    rw [clockEdge_rst hrst] at h
    cases h
    exact .inl ⟨rfl, if_pos hrst, rfl, rfl⟩
  | false =>
    have hevent : p.event i = if p.accepts i then [.command i.cmd] else [] := if_neg (ne_true_of_eq_false hrst)
    cases hacc : p.accepts i with
    | true =>
      simp only [clockEdge, hrst, hacc, Bool.false_eq_true, if_true, if_false] at h
      split at h
      · next b r ha =>
        cases h
        exact .inr (.inl ⟨rfl, by rw [hevent, hacc]; rfl, pending_of_accepts hacc, r, ha, rfl⟩)
      · cases h
      · cases h
    | false =>
      rw [clockEdge_pass hrst hacc] at h
      cases h
      exact .inr (.inr ⟨rfl, by rw [hevent, hacc]; rfl, rfl, responding_append_advance p _ _⟩)

/-- A run of edges that ends is its first edge and the run from there. -/
theorem clockRun_cons_next (h : clockRun lat p (i :: is) = .next tr) :
    ∃ q tr', clockEdge lat p i = .next q ∧ clockRun lat q is = .next tr' ∧
      tr = ⟨tr'.last, p.event i ++ tr'.events, p.responding.toList ++ tr'.delivered⟩ := by
  rw [clockRun] at h
  split at h
  · next q hq =>
    split at h
    · next tr' htr =>
      cases h
      exact ⟨q, tr', hq, htr, rfl⟩
    · cases h
    · cases h
  · cases h
  · cases h

/-- Over a run of edges the block serves the resets and the accepted words, and what it answers, behind a response due at
the start, is delivered in order or due at the end; a reset may drop a response. -/
theorem clockRun_serves (h : clockRun lat p is = .next tr) :
    ∃ rs, Serves p.blk tr.events tr.last.blk rs ∧ tr.delivered.Sublist (p.pending ++ rs) ∧
      ((∀ i ∈ is, i.rst = false) → p.pending ++ rs = tr.delivered ++ tr.last.pending) := by
  induction is generalizing p tr with
  | nil =>
    cases h
    exact ⟨[], Serves.nil _, List.nil_sublist _, fun _ => List.append_nil _⟩
  | cons i is ih =>
    obtain ⟨q, tr', hedge, hrun, rfl⟩ := clockRun_cons_next h
    obtain ⟨rs, hserves, hsub, hall⟩ := ih hrun
    have hall' : (∀ j ∈ i :: is, j.rst = false) → q.pending ++ rs = tr'.delivered ++ tr'.last.pending :=
      fun hrst => hall fun j hj => hrst j (List.mem_cons_of_mem i hj)
    rcases clockEdge_next hedge with ⟨hrst, hevent, hblk, hpend⟩ | ⟨-, hevent, hidle, r, ha, hpend⟩ | ⟨-, hevent, hblk, hpend⟩
    · rw [hevent]
      rw [hblk] at hserves
      rw [hpend, List.nil_append] at hsub
      exact ⟨rs, hserves.reset, (responding_sublist_pending p).append hsub,
        fun hno => absurd hrst (ne_true_of_eq_false (hno i List.mem_cons_self))⟩
    · have hquiet : p.responding.toList = [] := List.sublist_nil.1 (hidle ▸ responding_sublist_pending p)
      rw [hevent, hidle, hquiet]
      rw [hpend] at hsub hall'
      exact ⟨r :: rs, hserves.command ha, hsub, hall'⟩
    · rw [hevent, ← hpend]
      refine ⟨rs, hblk ▸ hserves, ?_, fun hno => ?_⟩
      · rw [List.append_assoc]
        exact hsub.append_left _
      · rw [List.append_assoc, hall' hno]
        exact (List.append_assoc ..).symm

end Edges

/-! ### A response on its way (R52 (c) to (e)) -/

section Busy

variable {lat : Nat → Word16 → Nat} {q : PortState} {js : List PortIn} {r : Response} {k n : Nat}

/-- `k` edges after acceptance take a response due in `k` edges onto the ports, and one more past them. -/
theorem advance_iterate_busy (h : n ≤ k) : Phase.advance^[n] (.busy k r) = .busy (k - n) r := by
  induction n generalizing k with
  | zero => rfl
  | succ n ih =>
    obtain ⟨k, rfl⟩ := Nat.exists_eq_add_of_le' (Nat.lt_of_lt_of_le n.succ_pos h)
    rw [Function.iterate_succ_apply, Phase.advance, ih (Nat.le_of_succ_le_succ h), Nat.add_sub_add_right]

theorem advance_iterate_busy_idle : Phase.advance^[k + 1] (.busy k r) = .idle := by
  rw [Function.iterate_succ_apply', advance_iterate_busy le_rfl, Nat.sub_self]
  rfl

/-- While a response is on its way, edges without reset accept nothing and leave the block. -/
theorem clockRun_busy (hphase : q.phase = .busy k r) (hrst : ∀ j ∈ js, j.rst = false) (hlen : js.length ≤ k + 1) :
    ∃ tr, clockRun lat q js = .next tr ∧ tr.events = [] ∧ tr.last.blk = q.blk ∧
      tr.last.phase = Phase.advance^[js.length] (.busy k r) := by
  induction js generalizing q k with
  | nil => exact ⟨⟨q, [], []⟩, rfl, rfl, rfl, hphase⟩
  | cons j js ih =>
    have hj : j.rst = false := hrst j List.mem_cons_self
    have hacc : q.accepts j = false := by simp [PortState.accepts, PortState.ready, hphase]
    have hevent : q.event j = [] := by simp [PortState.event, hj, hacc]
    obtain ⟨tr, hrun, hevents, hblk, hlast⟩ : ∃ tr, clockRun lat ⟨q.blk, q.phase.advance, q.edges + 1⟩ js = .next tr ∧
        tr.events = [] ∧ tr.last.blk = q.blk ∧ tr.last.phase = Phase.advance^[js.length] (Phase.busy k r).advance := by
      cases k with
      | zero =>
        obtain rfl : js = [] := List.length_eq_zero_iff.1 (by simpa using hlen)
        exact ⟨_, rfl, rfl, rfl, congrArg Phase.advance hphase⟩
      | succ k =>
        exact ih (congrArg Phase.advance hphase) (fun i hi => hrst i (List.mem_cons_of_mem j hi)) (Nat.le_of_succ_le_succ hlen)
    refine ⟨⟨tr.last, q.event j ++ tr.events, q.responding.toList ++ tr.delivered⟩, ?_, ?_, hblk, hlast⟩
    · rw [clockRun, clockEdge_pass hj hacc]
      simp only [hrun]
    · rw [hevent, hevents]
      rfl

/-- The output ports before a response, in its one cycle, and after it (R52 (a), (c), (d)). -/
theorem out_of_busy_succ (h : q.phase = .busy (k + 1) r) : (q.out false).cmdReady = false ∧ (q.out false).rspValid = false := by
  simp [PortState.out, PortState.ready, PortState.responding, h]

theorem out_of_busy_zero (h : q.phase = .busy 0 r) :
    q.out false = { cmdReady := false, rspValid := true, rspSt := r.st, rspVal := r.val } := by
  simp [PortState.out, PortState.ready, PortState.responding, h]

theorem out_of_idle (h : q.phase = .idle) : (q.out false).cmdReady = true ∧ (q.out false).rspValid = false := by
  simp [PortState.out, PortState.ready, PortState.responding, h]

end Busy

end Sys2Proof.Machine
end

section
/-! The statements about the ports: R50 to R52. -/

namespace Sys2Proof.Proofs

open Sys2Proof.Machine Sys2Proof.Claims

/-- Settles O52: edge by edge, a reset or an accepted word is one step of the step function and any other edge none. -/
theorem portsCarryTheStepFunction : Obligations.PortsCarryTheStepFunction := by
  intro lat p is tr hidle h
  obtain ⟨rs, hserves, hsub, hall⟩ := clockRun_serves h
  rw [hidle] at hsub hall
  exact ⟨rs, hserves [], hsub, hall⟩

/-- Settles O53: acceptance makes the response due in `LAT - 1` edges, and every edge since brings it one nearer. -/
theorem responseComesLatCyclesLater : Obligations.ResponseComesLatCyclesLater := by
  intro lat p q i b r hlat hacc ha hq js hrst hlen
  obtain ⟨k, hk⟩ := Nat.exists_eq_add_of_le' (hlat p.edges i.cmd)
  rw [hk] at hlen ⊢
  cases (clockEdge_accept hacc ha).symm.trans hq
  obtain ⟨tr, hrun, hevents, hblk, hphase⟩ :=
    clockRun_busy (lat := lat) (q := ⟨b, .busy (lat p.edges i.cmd - 1) r, p.edges + 1⟩) (k := k) (by rw [hk]; rfl) hrst hlen
  refine ⟨tr, hrun, hevents, hblk, fun hearly => ?_, fun hdue => ?_, fun hpast => ?_⟩
  · rw [advance_iterate_busy (by omega), show k - js.length = k - js.length - 1 + 1 by omega] at hphase
    exact out_of_busy_succ hphase
  · rw [advance_iterate_busy (by omega), show k - js.length = 0 by omega] at hphase
    exact out_of_busy_zero hphase
  · rw [hpast, advance_iterate_busy_idle] at hphase
    exact ⟨hphase, out_of_idle hphase⟩

end Sys2Proof.Proofs
end

section
/-! The assembler (R60): what it accepts is well formed. -/

namespace Sys2Proof.Machine

section Assembler

variable {cs m o line : List Char} {i : Instr}

/-- An accepted operand lies below its bound. -/
theorem toNat_lt_of_operand {w bound : Nat} {v : BitVec w} (h : operand w bound cs = some v) : v.toNat < bound := by
  rw [operand] at h
  split at h
  · split at h
    · next hlt =>
      cases h
      exact Nat.lt_of_le_of_lt (Nat.mod_le _ _) hlt
    · cases h
  · cases h

/-- A command without operand is well formed. -/
theorem wf_of_assembleNone (h : assembleNone m = some i) : i.wf = true := by
  rw [assembleNone] at h
  split_ifs at h <;> cases h <;> rfl

/-- A command with one operand is well formed: each bound is the row's. -/
theorem wf_of_assembleOne (h : assembleOne m o = some i) : i.wf = true := by
  rw [assembleOne] at h
  split_ifs at h <;> obtain ⟨v, hv, rfl⟩ := Option.map_eq_some_iff.1 h
  · rfl
  · rfl
  · exact decide_eq_true (Nat.le_of_lt_succ (toNat_lt_of_operand hv))
  · rfl
  · exact decide_eq_true (Nat.le_of_lt_succ (toNat_lt_of_operand hv))
  · exact decide_eq_true (Nat.le_of_lt_succ (toNat_lt_of_operand hv))

theorem AsmLine.ofOption_eq_command {x : Option Instr} : AsmLine.ofOption x = .command i ↔ x = some i := by
  cases x <;> simp [AsmLine.ofOption]

/-- A line that is a command is a mnemonic alone, or a mnemonic and an operand. -/
theorem assembleLine_eq_command (h : assembleLine line = .command i) :
    (∃ m, assembleNone m = some i) ∨ ∃ m o, assembleOne m o = some i := by
  rw [assembleLine] at h
  split at h
  · cases h
  · next m _ => exact .inl ⟨m, AsmLine.ofOption_eq_command.1 h⟩
  · next m o _ => exact .inr ⟨m, o, AsmLine.ofOption_eq_command.1 h⟩
  · cases h

theorem wf_of_assembleLine (h : assembleLine line = .command i) : i.wf = true := by
  rcases assembleLine_eq_command h with ⟨m, hm⟩ | ⟨m, o, hm⟩
  · exact wf_of_assembleNone hm
  · exact wf_of_assembleOne hm

/-- The word of a line that holds a command is the command's. -/
theorem assembleWord_of_command (h : assembleLine line = .command i) : assembleWord line = some (encode i) := by
  rw [assembleWord, h]

end Assembler

end Sys2Proof.Machine
end

section
/-! The statements about the assembler: R60. -/

namespace Sys2Proof.Proofs

open Sys2Proof.Machine Sys2Proof.Claims

/-- Settles O59: the bounds of the operands are the legal ranges of R56, and a well-formed command is read back. -/
theorem assembledLinesAreLegal : Obligations.AssembledLinesAreLegal := by
  intro line i h
  have hwf := wf_of_assembleLine h
  exact ⟨hwf, encode i, assembleWord_of_command h, decode_encode hwf⟩

/-- Settles O58: the twelve lines evaluate. -/
theorem assemblerLines : Obligations.AssemblerLines := by
  unfold Obligations.AssemblerLines
  decide

end Sys2Proof.Proofs
end

section
/-! The register as a linear map: what one iteration, one byte and a code absorbed after its own register leave (R70 to R74). -/

namespace Sys2Proof.Machine

/-! ### One iteration (R70) -/

/-- Each bit of an iteration is the bit above it, XORed with the feedback where `POLY` has a 1. -/
theorem getLsbD_crcBit (r : Word16) (b : Bool) (i : Nat) :
    (crcBit r b).getLsbD i = (r.getLsbD (i + 1) ^^ ((r.getLsbD 0 ^^ b) && Config.poly.getLsbD i)) := by
  rw [crcBit]
  cases r.getLsbD 0 ^^ b <;> simp [BitVec.getLsbD_ushiftRight, Nat.add_comm 1 i]

/-- The bits of `POLY` (R4). -/
theorem getLsbD_poly {i : Nat} (hi : i < 16) : Config.poly.getLsbD i = decide (i = 15 ∨ i = 10 ∨ i = 3) := by
  revert i
  decide

/-- An iteration is linear in register and data bit together. -/
theorem crcBit_xor (r r' : Word16) (b b' : Bool) :
    crcBit (r ^^^ r') (b ^^ b') = crcBit r b ^^^ crcBit r' b' := by
  apply BitVec.eq_of_getLsbD_eq
  intro i _
  simp only [getLsbD_crcBit, BitVec.getLsbD_xor, Bool.and_xor_distrib_right]
  simp only [Bool.xor_assoc, Bool.xor_left_comm]

/-- A data bit equal to bit 0 of the register feeds nothing back. -/
theorem crcBit_getLsbD_zero (r : Word16) : crcBit r (r.getLsbD 0) = r >>> 1 := by
  rw [crcBit, Bool.xor_self, if_neg Bool.false_ne_true]

/-- A data bit of 0 feeds bit 0 of the register back. -/
theorem crcBit_false (r : Word16) : crcBit r false = if r.getLsbD 0 = true then (r >>> 1) ^^^ Config.poly else r >>> 1 := by
  rw [crcBit, Bool.xor_false]

theorem crcBit_bijective (b : Bool) : Function.Bijective fun r => crcBit r b :=
  Function.Surjective.bijective_of_finite fun q => ⟨crcUnbit q b, crcBit_crcUnbit q b⟩

/-- R74 law 4: `crcUnbit` recovers the register from the result of its iteration. -/
theorem crcUnbit_crcBit (r : Word16) (b : Bool) : crcUnbit (crcBit r b) b = r :=
  (crcBit_bijective b).injective (crcBit_crcUnbit (crcBit r b) b)

/-! ### Bytes and sequences (R71, R72) -/

/-- Absorbing a list whose every element is absorbed by a bijection is a bijection. -/
theorem foldl_bijective {α β : Type} {f : α → β → α} (hf : ∀ b, Function.Bijective fun a => f a b) (l : List β) :
    Function.Bijective fun a => l.foldl f a := by
  induction l with
  | nil => exact Function.bijective_id
  | cons b l ih => exact ih.comp (hf b)

theorem crcByte_bijective (d : Byte) : Function.Bijective fun r => crcByte r d :=
  foldl_bijective (fun i => crcBit_bijective (d.getLsbD i)) _

theorem crcBytes_bijective (s : List Byte) : Function.Bijective fun r => crcBytes r s :=
  foldl_bijective crcByte_bijective s

theorem crcBytes_append (r : Word16) (s t : List Byte) : crcBytes r (s ++ t) = crcBytes (crcBytes r s) t :=
  List.foldl_append

/-- Absorbing a byte is linear in register and byte together. -/
theorem crcByte_xor (r r' : Word16) (d d' : Byte) : crcByte (r ^^^ r') (d ^^^ d') = crcByte r d ^^^ crcByte r' d' := by
  simp only [crcByte_unfold, BitVec.getLsbD_xor, crcBit_xor]

/-- A register that absorbs its own low byte is shifted down: every data bit meets itself in bit 0. -/
theorem crcByte_lo (c : Word16) : crcByte c (lo c) = c >>> 8 := by
  have hbit {i : Nat} (hlt : i < 8) : crcBit (c >>> i) ((lo c).getLsbD i) = c >>> (i + 1) := by
    have h0 : (lo c).getLsbD i = (c >>> i).getLsbD 0 := by simp [lo, hlt]
    rw [h0, crcBit_getLsbD_zero, BitVec.shiftRight_add]
  have hfirst : crcBit c ((lo c).getLsbD 0) = c >>> 1 := hbit (i := 0) (by decide)
  rw [crcByte_unfold, hfirst, hbit, hbit, hbit, hbit, hbit, hbit, hbit] <;> decide

theorem lo_setWidth (d : Byte) : lo (d.setWidth 16) = d := by
  rw [lo, BitVec.extractLsb'_setWidth_of_le (by decide), BitVec.extractLsb'_eq_self]

theorem lo_ushiftRight (c : Word16) : lo (c >>> 8) = hi c := by
  apply BitVec.eq_of_toNat_eq
  simp [lo, hi, Nat.shiftRight_eq_div_pow]

/-- The data byte may be XORed into the low bits of the register first (R71). -/
theorem crcByte_eq_crcByte_zero (r : Word16) (d : Byte) : crcByte r d = crcByte (r ^^^ d.setWidth 16) 0#8 := by
  have hself : crcByte (d.setWidth 16) d = 0#16 := by
    have hlo := crcByte_lo (d.setWidth 16)
    rwa [lo_setWidth, ← BitVec.setWidth_ushiftRight (by decide), BitVec.ushiftRight_eq_zero (Nat.le_refl 8)] at hlo
  calc crcByte r d
      = crcByte r d ^^^ crcByte (d.setWidth 16) d := by rw [hself, BitVec.xor_zero]
    _ = crcByte (r ^^^ d.setWidth 16) 0#8 := by rw [← crcByte_xor, BitVec.xor_self]

/-- On a fixed register different bytes give different results. -/
theorem crcByte_right_injective (r : Word16) : Function.Injective (crcByte r) := by
  intro d d' h
  rw [crcByte_eq_crcByte_zero r d, crcByte_eq_crcByte_zero r d'] at h
  have hlow := (crcByte_bijective 0).injective h
  rw [← lo_setWidth d, (BitVec.xor_right_inj _).1 hlow, lo_setWidth]

/-- A code is absorbed as if it were XORed into the register and two zero bytes followed. -/
theorem crcBytes_codeBytes (r c : Word16) : crcBytes r (codeBytes c) = crcBytes (r ^^^ c) [0#8, 0#8] := by
  have hself : crcBytes c (codeBytes c) = 0#16 := by
    rw [codeBytes, crcBytes_cons, crcBytes_cons, crcBytes_nil, crcByte_lo, ← lo_ushiftRight, crcByte_lo,
      ← BitVec.shiftRight_add, BitVec.ushiftRight_eq_zero (Nat.le_refl 16)]
  calc crcBytes r (codeBytes c)
      = crcBytes r (codeBytes c) ^^^ crcBytes c (codeBytes c) := by rw [hself, BitVec.xor_zero]
    _ = crcBytes (r ^^^ c) [0#8, 0#8] := by
      simp only [codeBytes, crcBytes_cons, crcBytes_nil, ← crcByte_xor, BitVec.xor_self]

/-- R74 law 7: a register that absorbs its own code leaves the residue, whatever the register. -/
theorem crcBytes_codeBytes_codeOf (r : Word16) : crcBytes r (codeBytes (codeOf r)) = 0xF0B8 := by
  rw [crcBytes_codeBytes, codeOf, ← BitVec.xor_assoc, BitVec.xor_self, BitVec.zero_xor]
  decide +kernel

/-! ### The code and its comparison (R73, R80) -/

theorem toNat_lo (c : Word16) : (lo c).toNat = c.toNat % 256 := by
  rw [lo, BitVec.extractLsb'_toNat, Nat.shiftRight_zero]

theorem toNat_hi (c : Word16) : (hi c).toNat = c.toNat / 256 := by
  rw [← lo_ushiftRight, toNat_lo, BitVec.toNat_ushiftRight, Nat.shiftRight_eq_div_pow]
  omega

/-- A code is determined by its two bytes. -/
theorem codeBytes_injective : Function.Injective codeBytes := by
  intro c c' h
  injection h with hlo h
  injection h with hhi
  apply BitVec.eq_of_toNat_eq
  rw [← Nat.div_add_mod c.toNat 256, ← Nat.div_add_mod c'.toNat 256, ← toNat_lo, ← toNat_lo, ← toNat_hi, ← toNat_hi, hlo, hhi]

theorem codeOf_injective : Function.Injective codeOf := fun _ _ => (BitVec.xor_left_inj _).1

/-- R80: what `verify` compares. -/
theorem verify_iff {frame : List Byte} {n : Nat} (h : n + 2 ≤ frame.length) :
    verify frame n h = true ↔ frame[n] = lo (compute (frame.take n)) ∧ frame[n + 1] = hi (compute (frame.take n)) := by
  rw [verify, codeMatches, Bool.and_eq_true, beq_iff_eq, beq_iff_eq]

/-- `verify` at `n` looks at no byte from `n + 2` on (R80). -/
theorem verify_append {frame : List Byte} {n : Nat} (h : n + 2 ≤ frame.length) (more : List Byte)
    (h' : n + 2 ≤ (frame ++ more).length) : verify (frame ++ more) n h' = verify frame n h := by
  rw [verify, verify, List.take_append_of_le_length (by omega), List.getElem_append_left (by omega),
    List.getElem_append_left (by omega)]

/-- A sequence followed by two code bytes verifies exactly when they are its code. -/
theorem verify_codeBytes_iff {s : List Byte} {c : Word16} {n : Nat} (hn : s.length = n)
    (h : n + 2 ≤ (s ++ codeBytes c).length) : verify (s ++ codeBytes c) n h = true ↔ c = compute s := by
  subst hn
  rw [verify, codeMatches_iff, List.take_left, List.getElem_append_right (Nat.le_refl _),
    List.getElem_append_right (Nat.le_add_right _ 1)]
  simp only [Nat.sub_self, Nat.add_sub_cancel_left]
  exact codeBytes_injective.eq_iff

/-- Sequences that differ in one byte have different codes. -/
theorem compute_ne_of_byte_ne {d d' : Byte} (h : d ≠ d') (pre post : List Byte) :
    compute (pre ++ d :: post) ≠ compute (pre ++ d' :: post) := by
  intro heq
  have hreg := codeOf_injective heq
  rw [crcBytes_append, crcBytes_append, crcBytes_cons, crcBytes_cons] at hreg
  exact h (crcByte_right_injective _ ((crcBytes_bijective post).injective hreg))

/-- A word with one of its bits flipped is another word. -/
theorem xor_one_shiftLeft_ne {w j : Nat} (hj : j < w) (x : BitVec w) : x ^^^ (1#w <<< j) ≠ x := by
  intro h
  have hbit := congrArg (fun y => y.getLsbD j) h
  simp [hj] at hbit

end Sys2Proof.Machine
end

section
/-! The statements about the checksum as pure functions: R70 to R74, R80. -/

namespace Sys2Proof.Proofs

open Sys2Proof.Machine

/-- Settles O7: every bit is the bit above it and the feedback where `POLY` has a 1. -/
theorem crcBitInBits : Obligations.CrcBitInBits := by
  refine ⟨fun r b => ⟨rfl, ?_, ?_, ?_, fun i hi h10 h3 => ?_⟩, rfl⟩ <;> rw [getLsbD_crcBit, getLsbD_poly (by omega)]
  · simp
  · simp
  · simp
  · simp [hi.ne, h10, h3]

/-- Settles O8: a register that absorbs its own byte ends at 0, so by linearity the byte may be XORed in first. -/
theorem crcByteTwoFormulations : Obligations.CrcByteTwoFormulations := by
  refine ⟨fun r d => ⟨rfl, ?_⟩, by decide +kernel, by decide +kernel⟩
  rw [crcByte_eq_crcByte_zero]
  have hzero (x : Word16) : crcByte x 0#8 = Nat.fold 8 (fun _ _ q => crcBit q false) x := rfl
  simp only [hzero, crcBit_false]
  rfl

/-- Settles O9: a fold over the bytes, first byte first. -/
theorem crcOfSequences : Obligations.CrcOfSequences :=
  ⟨fun _ => rfl, crcBytes_append, crcBytes_nil, fun _ _ => rfl, compute_nil, congrArg codeBytes compute_nil⟩

/-- Settles O10: XOR with all ones is the complement, and the two bytes are remainder and quotient by 256. -/
theorem codeIsComplementLowByteFirst : Obligations.CodeIsComplementLowByteFirst := by
  refine ⟨fun r => ⟨rfl, BitVec.xor_allOnes⟩, fun c => ?_, by decide +kernel, by decide +kernel, by decide +kernel⟩
  rw [codeBytes, List.map_cons, List.map_singleton, toNat_lo, toNat_hi]

/-- Settles O11: an iteration is undone by `crcUnbit`, and bytes and sequences are compositions of iterations. -/
theorem crcUpdatesAreBijections : Obligations.CrcUpdatesAreBijections :=
  ⟨fun r b => (crcUnbit_crcBit r b).symm, crcByte_bijective, crcBytes_bijective⟩

/-- Settles O12: the two bytes behind the sequence are its code. -/
theorem verifyRoundTrip : Obligations.VerifyRoundTrip :=
  fun _ h => (verify_codeBytes_iff rfl h).2 rfl

/-- Settles O13: another byte gives another code, since every update is injective, and another code is another pair of bytes. -/
theorem singleBitErrorsAreDetected : Obligations.SingleBitErrorsAreDetected := by
  have hdata (pre post : List Byte) (d : Byte) {j : Nat} (hj : j < 8) :
      compute (pre ++ (d ^^^ (1#8 <<< j)) :: post) ≠ compute (pre ++ d :: post) :=
    compute_ne_of_byte_ne (xor_one_shiftLeft_ne hj d) pre post
  refine ⟨fun pre post d j hj => hdata pre post d hj, fun pre post d j hj h => ?_, fun s j hj h => ?_⟩
  · rw [Bool.eq_false_iff, Ne, verify_codeBytes_iff (by simp; omega)]
    exact (hdata pre post d hj).symm
  · rw [Bool.eq_false_iff, Ne, verify_codeBytes_iff rfl]
    exact xor_one_shiftLeft_ne hj (compute s)

/-- Settles O14: the register takes in its own complement, which leaves what all ones and two zero bytes leave. -/
theorem residueIsConstant : Obligations.ResidueIsConstant :=
  fun s => ⟨(crcBytes_append _ s _).trans (crcBytes_codeBytes_codeOf _), rfl⟩

/-- Settles O15: the comparison reads bytes `n` and `n + 1` and those before them. -/
theorem verifyComparesCodeAtN : Obligations.VerifyComparesCodeAtN :=
  ⟨fun _ _ => verify_iff, fun _ more _ h => verify_append h more⟩

end Sys2Proof.Proofs
end

section
/-! The words of one opcode, and the answers and faults of the streaming and checking commands in the bytes of the buffer
(R57, R75 to R79). -/

namespace Sys2Proof.Machine

open Sys2Proof.Claims Sys2Proof.Proofs

/-! ### The words of one opcode (R56, R57) -/

/-- The word of a command whose operand is `d` (format D). -/
theorem commandWord_byte (op : Nibble) (d : Byte) : commandWord op 0 d = commandWord op 0 0 + d.setWidth 16 := by
  apply BitVec.eq_of_toNat_eq
  simp [commandWord, BitVec.toNat_add]

/-- The word of a command whose operand is `a` (format A). -/
theorem commandWord_small (op a : Nibble) : commandWord op a 0 = commandWord op 0 0 + a.setWidth 16 * 256 := by
  apply BitVec.eq_of_toNat_eq
  simp [commandWord, BitVec.toNat_add, BitVec.toNat_mul]

theorem encode_crcb (d : Byte) : encode (.crcb d) = 0x3000#16 + d.setWidth 16 := commandWord_byte 3 d

theorem encode_crcf (n : Nibble) : encode (.crcf n) = 0x5000#16 + n.setWidth 16 * 256 := commandWord_small 5 n

/-- The other words of an opcode are illegal when the words of all its well-formed instructions are listed. -/
theorem otherWordsIllegal_of_encode {op : Nibble} {legal : Word16 → Prop}
    (h : ∀ i : Instr, i.wf = true → fieldOp (encode i) = op → legal (encode i)) : otherWordsIllegal op.toNat legal := by
  intro w hop hw s
  have hnone : ¬ ∃ i, decode w = .command i := by
    rintro ⟨i, hi⟩
    obtain ⟨hwf, rfl⟩ := encode_of_decode hi
    exact hw (h i hwf (BitVec.eq_of_toNat_eq ((toNat_fieldOp _).trans hop)))
  obtain ⟨why, hwhy⟩ := decode_illegal_of_not_command hnone
  exact execWord_illegal_eq hwhy s

/-! ### Answers and faults as the statements write them -/

section Effects

variable {i : Instr} {s : State} {b b' : Block} {v : Word32}

/-- A command whose checks pass responds `(OK, v)` and leaves the block it says. -/
theorem exec_okState (h : Answers i s.blk b v) : exec i s = .next (okState s b v) := exec_of_answers h

/-- A command whose checks fail leaves what R140 says. -/
theorem exec_faultState {f : FaultCode} (h : Faults i s.blk f) : exec i s = .next (faultState s f.code) := exec_of_faults h

/-- The register after the first bytes of the buffer (R72, R78). -/
theorem Block.crcOf_eq_firstBytes (b : Block) (n : Nat) : b.crcOf n = crcBytes 0xFFFF (firstBytes b n) := by
  rw [Block.crcOf, readBytes_eq_firstBytes]
  rfl

/-- Its code is that of the bytes. -/
theorem Block.codeOf_crcOf (b : Block) (n : Nat) : codeOf (b.crcOf n) = compute (firstBytes b n) := by
  rw [Block.crcOf_eq_firstBytes]
  rfl

theorem Block.matchAt_eq_frameGood (b : Block) (n : Nat) : b.matchAt n = frameGood b n :=
  Bool.eq_iff_iff.2 (frameGood_iff_matchAt b n).symm

/-- `CRCR` reads the register it is given (R77). -/
theorem exec_crcr_of_crc {c : Word16} (hcrc : s.blk.crc = c) : exec .crcr s = .next (okState s s.blk (codeVal (codeOf c))) := by
  rw [exec_okState .crcr, hcrc]

/-- `CRCF` and `SEAL` respond with the code of the register they leave. -/
theorem Answers.code_of_crc (h : Answers i b b' v) (hi : (∃ n, i = .crcf n) ∨ i = .sealReq) :
    v = codeVal (codeOf b'.crc) := by
  rcases hi with ⟨n, rfl⟩ | rfl <;> cases h <;> rfl

/-- `VRFY` leaves the register of the data it has compared. -/
theorem Answers.crc_of_vrfy {k : FrameKind} (h : Answers (.vrfy k) b b' v) :
    b'.crc = b.crcOf (kindDataLen k b.len.toNat) := by
  cases h
  rfl

/-- `CRCF` of a legal count within the buffer, by the bytes it covers and their register (R78). -/
theorem exec_crcf_of_bytes {n : Nibble} {bs : List Byte} {r : Word16} (hn : n.toNat ≤ 10) (hlen : n.toNat ≤ s.blk.len.toNat)
    (hbytes : firstBytes s.blk n.toNat = bs) (hr : crcBytes 0xFFFF bs = r) :
    exec (.crcf n) s = .next (okState s { s.blk with crc := r } (codeVal (codeOf r))) := by
  rw [exec_okState (.crcf hn hlen), Block.crcOf_eq_firstBytes, hbytes, hr]

/-- `VRFY` of a buffer long enough, in the bytes it covers (R79). -/
theorem exec_vrfy_okState {k : FrameKind} {n : Nat} (hn : kindDataLen k s.blk.len.toNat = n)
    (hmin : kindMinLen k ≤ s.blk.len.toNat) (hend : n + 2 ≤ 10) :
    exec (.vrfy k) s = .next (okState s
      { s.blk with crc := crcBytes 0xFFFF (firstBytes s.blk n), vok := vokAfterVerify k (frameGood s.blk n) }
      (if frameGood s.blk n then 1 else 0)) := by
  subst hn
  rw [exec_okState (.vrfy hmin hend), Block.matchAt_eq_frameGood, Block.crcOf_eq_firstBytes]
  rfl

/-- `VOK` after a response check is its result (R13). -/
theorem vokAfterVerify_rsp (m : Bool) : vokAfterVerify .rsp m = m := Bool.and_true m

/-- `VOK` after any other check is 0 (R13). -/
theorem vokAfterVerify_of_ne {k : FrameKind} (hk : k ≠ .rsp) (m : Bool) : vokAfterVerify k m = false := by
  rw [vokAfterVerify, decide_eq_false hk, Bool.and_false]

/-- A response check leaves its result in `VOK` (R79). -/
theorem exec_vrfy_rsp (hlen : 8 ≤ s.blk.len.toNat) :
    exec (.vrfy .rsp) s = .next (okState s
      { s.blk with crc := crcBytes 0xFFFF (firstBytes s.blk 6), vok := frameGood s.blk 6 }
      (if frameGood s.blk 6 then 1 else 0)) := by
  rw [exec_vrfy_okState (k := .rsp) (n := 6) rfl hlen (by decide), vokAfterVerify_rsp]

/-- Every other check clears `VOK`, whatever its result (R79). -/
theorem exec_vrfy_of_ne_rsp {k : FrameKind} {n : Nat} (hk : k ≠ .rsp) (hn : kindDataLen k s.blk.len.toNat = n)
    (hmin : kindMinLen k ≤ s.blk.len.toNat) (hend : n + 2 ≤ 10) :
    exec (.vrfy k) s = .next (okState s
      { s.blk with crc := crcBytes 0xFFFF (firstBytes s.blk n), vok := false }
      (if frameGood s.blk n then 1 else 0)) := by
  rw [exec_vrfy_okState hn hmin hend, vokAfterVerify_of_ne hk]

end Effects

/-- The check of a buffer that holds these data bytes and two more. -/
theorem frameGood_of_firstBytes {b : Block} {data c : List Byte} {n : Nat} (h : firstBytes b (n + 2) = data ++ c)
    (hn : data.length = n) : firstBytes b n = data ∧ frameGood b n = (c == codeBytes (compute data)) := by
  rw [firstBytes_add_two] at h
  obtain ⟨hdata, hcode⟩ := List.append_inj h (by simp [firstBytes, hn])
  exact ⟨hdata, by rw [frameGood, hdata, hcode]⟩

/-- Two bytes alone are good exactly when they are the code `00 00` of the empty sequence (R72, R79). -/
theorem frameGood_zero (b : Block) : frameGood b 0 = true ↔ b.fb.read 0 = 0 ∧ b.fb.read 1 = 0 := by
  have hcode : codeBytes (compute (firstBytes b 0)) = [0, 0] := congrArg codeBytes compute_nil
  rw [frameGood, hcode]
  simp

/-! ### A code as a response value (R54, R77) -/

theorem extractLsb'_codeVal (c : Word16) : (codeVal c).extractLsb' 0 16 = c := by
  rw [codeVal, BitVec.extractLsb'_setWidth_of_le (by decide), BitVec.extractLsb'_eq_self]

theorem extractLsb'_codeVal_high (c : Word16) : (codeVal c).extractLsb' 16 16 = 0#16 := by
  apply BitVec.eq_of_toNat_eq
  simp only [codeVal, BitVec.extractLsb'_toNat, BitVec.toNat_setWidth, BitVec.toNat_ofNat, Nat.shiftRight_eq_div_pow]
  omega

/-- The two low bytes of the value are the code on the wire. -/
theorem bytes_codeVal (c : Word16) : [(codeVal c).extractLsb' 0 8, (codeVal c).extractLsb' 8 8] = codeBytes c := by
  rw [codeVal, BitVec.extractLsb'_setWidth_of_le (by decide), BitVec.extractLsb'_setWidth_of_le (by decide)]
  rfl

end Sys2Proof.Machine
end

section
/-! The statements about the streaming commands and the frame checks: R75 to R79. -/

namespace Sys2Proof.Proofs

open Sys2Proof.Machine Sys2Proof.Claims

/-! ### No other word of the opcode is legal (R57) -/

theorem otherWordsIllegal_crci : otherWordsIllegal 2 (· = 0x2000) :=
  otherWordsIllegal_of_encode (op := 2) fun i _ h => by
    cases i with
    | crci => rfl
    | _ => simp [encode] at h

theorem otherWordsIllegal_crcb : otherWordsIllegal 3 (fun w => ∃ d : Byte, w = 0x3000#16 + d.setWidth 16) :=
  otherWordsIllegal_of_encode (op := 3) fun i _ h => by
    cases i with
    | crcb d => exact ⟨d, encode_crcb d⟩
    | _ => simp [encode] at h

theorem otherWordsIllegal_crcr : otherWordsIllegal 4 (· = 0x4000) :=
  otherWordsIllegal_of_encode (op := 4) fun i _ h => by
    cases i with
    | crcr => rfl
    | _ => simp [encode] at h

theorem otherWordsIllegal_crcf :
    otherWordsIllegal 5 (fun w => ∃ n : Nibble, n.toNat ≤ 10 ∧ w = 0x5000#16 + n.setWidth 16 * 256) :=
  otherWordsIllegal_of_encode (op := 5) fun i hwf h => by
    cases i with
    | crcf n => exact ⟨n, of_decide_eq_true hwf, encode_crcf n⟩
    | _ => simp [encode] at h

theorem otherWordsIllegal_vrfy : otherWordsIllegal 7 (fun w => w = 0x7000 ∨ w = 0x7100 ∨ w = 0x7200) :=
  otherWordsIllegal_of_encode (op := 7) fun i _ h => by
    cases i with
    | vrfy k => cases k <;> decide
    | _ => simp [encode] at h

/-! ### The rules -/

/-- Settles O17: the answer of `CRCI`, and the complement of all ones is 0. -/
theorem crciInitialisesRegister : Obligations.CrciInitialisesRegister := by
  refine ⟨by decide, otherWordsIllegal_crci, fun s => exec_okState .crci, fun s hcrc => ?_, ⟨rfl, fun s t h => ?_⟩,
    fun s => ⟨_, exec_okState .crci, exec_crcr_of_crc (c := 0xFFFF) rfl⟩⟩
  · have hsame : { s.blk with crc := Config.crcInit } = s.blk := by rw [Config.crcInit, ← hcrc]
    rw [exec_okState .crci, hsame]
  · rw [respond_next h]
    rfl

/-- Settles O18: the answer of `CRCB` in every state, and the example registers evaluate. -/
theorem crcbAbsorbsOneByte : Obligations.CrcbAbsorbsOneByte :=
  ⟨fun d => decode_eq_command_iff.2 ⟨rfl, encode_crcb d⟩, otherWordsIllegal_crcb, fun _ _ => exec_okState .crcb,
    by decide +kernel, by decide +kernel, by decide +kernel, by decide +kernel⟩

/-- Settles O19: `CRCR` reads the complement of the register, and `CRCF`, `SEAL` and `VRFY` leave the register of their code. -/
theorem crcrReadsCode : Obligations.CrcrReadsCode := by
  refine ⟨by decide, otherWordsIllegal_crcr, fun s => ⟨_, exec_crcr_of_crc rfl, extractLsb'_codeVal _,
    extractLsb'_codeVal_high _, bytes_codeVal _⟩, fun s hcrc => exec_crcr_of_crc hcrc, fun n s t v h hr => ?_,
    fun s t v h hr => ?_, fun k s t v h hr => ?_, fun s hcrc => exec_crcr_of_crc hcrc⟩
  · rw [(answers_of_ok h hr).code_of_crc (.inl ⟨n, rfl⟩)]
    exact exec_crcr_of_crc rfl
  · rw [(answers_of_ok h hr).code_of_crc (.inr rfl)]
    exact exec_crcr_of_crc rfl
  · rw [exec_crcr_of_crc (answers_of_ok h hr).crc_of_vrfy, Block.codeOf_crcOf]
    cases k <;> rfl

/-- Settles O20: the two checks of `CRCF` in order, and the register of the bytes it covers with its code. -/
theorem crcfComputesCodeOfPrefix : Obligations.CrcfComputesCodeOfPrefix :=
  ⟨fun _ hn => decode_eq_command_iff.2 ⟨decide_eq_true hn, encode_crcf _⟩, otherWordsIllegal_crcf,
    fun _ _ hn hlen => exec_faultState (.crcf hn hlen), fun _ _ hn hlen => exec_crcf_of_bytes hn hlen rfl rfl,
    fun _ => exec_crcf_of_bytes (n := 0) (bs := []) (r := 0xFFFF) (Nat.zero_le _) (Nat.zero_le _) rfl rfl,
    fun _ hlen hbytes => exec_crcf_of_bytes (n := 6) (by decide) (by rw [hlen]; decide) hbytes (by decide +kernel)⟩

/-- Settles O21: the length check of each kind, and the comparison of the two bytes behind the data it covers. -/
theorem vrfyVerifiesFrame : Obligations.VrfyVerifiesFrame := by
  refine ⟨by decide, otherWordsIllegal_vrfy, fun s hlen => exec_faultState (.vrfy hlen),
    fun s hlen => exec_faultState (.vrfy hlen), fun s hlen => exec_faultState (.vrfy hlen),
    fun s hlen => exec_vrfy_rsp hlen, fun s hlen => exec_vrfy_of_ne_rsp (by decide) rfl hlen (by decide),
    fun s hmin hmax => exec_vrfy_of_ne_rsp (by decide) rfl hmin (by omega), fun s _ => frameGood_zero s.blk,
    fun s hlen hbytes => ?_, fun s hlen hbytes => ?_⟩
  · obtain ⟨hdata, hgood⟩ := frameGood_of_firstBytes (n := 6) (data := [0x00, 0x06, 0x00, 0x01, 0x86, 0xA0]) (c := [0xDD, 0xEB])
      hbytes rfl
    have hmatch : frameGood s.blk 6 = true := hgood.trans (by decide +kernel)
    have hregister : crcBytes 0xFFFF (firstBytes s.blk 6) = 0x1422 := by rw [hdata]; decide +kernel
    rw [exec_vrfy_rsp (by rw [hlen]; decide), hmatch, hregister]
    rfl
  · obtain ⟨-, hgood⟩ := frameGood_of_firstBytes (n := 6) (data := [0x00, 0x06, 0x00, 0x01, 0x86, 0xA1]) (c := [0xDD, 0xEB])
      hbytes rfl
    have hmismatch : frameGood s.blk 6 = false := hgood.trans (by decide +kernel)
    refine ⟨_, exec_vrfy_rsp (by rw [hlen]; decide), hmismatch, ?_⟩
    rw [hmismatch]
    rfl

end Sys2Proof.Proofs
end

section
/-! The commands of the frame buffer in the bytes they read and write (R90 to R94). -/

namespace Sys2Proof.Machine

open Sys2Proof.Claims Sys2Proof.Proofs

theorem encode_push (d : Byte) : encode (.push d) = 0x1000#16 + d.setWidth 16 := commandWord_byte 1 d

theorem encode_rdfb (i : Nibble) : encode (.rdfb i) = 0xA000#16 + i.setWidth 16 * 256 := commandWord_small 10 i

/-- The new fill level as a response value (R90). -/
theorem lenVal_succ {n : Nibble} (h : n.toNat < 10) : lenVal (n + 1) = BitVec.ofNat 32 (n.toNat + 1) := by
  rw [lenVal, ← BitVec.ofNat_toNat, toNat_len_succ h]

theorem byteVal_eq_ofNat (d : Byte) : byteVal d = BitVec.ofNat 32 d.toNat := (BitVec.ofNat_toNat 32 d).symm

section Bytes

variable {b : Block} {s : State}

/-- A byte of the buffer is found in the list of its first bytes. -/
theorem read_of_firstBytes {n i : Nat} {bs : List Byte} {d : Byte} (h : firstBytes b n = bs) (hd : bs[i]? = some d) :
    b.fb.read i = d := by
  subst h
  obtain ⟨hi, hd⟩ := List.getElem?_eq_some_iff.1 hd
  simpa [firstBytes] using hd

/-- `RDFB` of an index below `LEN`, by the byte that stands there (R92). -/
theorem exec_rdfb_of_read {i : Nibble} {d : Byte} (hi : i.toNat ≤ 9) (hlen : i.toNat < s.blk.len.toNat)
    (hd : s.blk.fb.read i.toNat = d) : exec (.rdfb i) s = .next (okState s s.blk (byteVal d)) := by
  rw [exec_okState (.rdfb hi hlen), hd]

/-- `SEAL` writes the two code bytes at 8 and 9 and leaves every other byte (R94). -/
theorem Block.read_sealed (h : b.fb.wf = true) (a : Nat) :
    b.sealed.fb.read a =
      if a = 8 then lo (compute (firstBytes b 8)) else
      if a = 9 then hi (compute (firstBytes b 8)) else b.fb.read a := by
  have hcode := Block.read_sealed_code h
  rw [Block.codeOf_crcOf, codeBytes, List.cons.injEq, List.cons.injEq] at hcode
  obtain ⟨hlo, hhi, -⟩ := hcode
  split
  · next h8 => rw [h8, hlo]
  · next h8 =>
    split
    · next h9 => rw [h9, hhi]
    · next h9 => exact Block.read_sealed_of_ne h h8 h9

/-- A canonical buffer with eight bytes holds its first eight bytes. -/
theorem Block.holds_firstBytes_eight (hlen : b.len = 8) (hwf : b.fb.wf = true) : b.Holds (firstBytes b 8) where
  len := by rw [hlen]; rfl
  bytes := rfl
  canonical := hwf

/-- The request check and the generic check of eight bytes and their code respond 1 (R79, R94). -/
theorem exec_vrfy_of_sealed {k : FrameKind} {data : List Byte} (hk : k ≠ .rsp)
    (h : s.blk.Holds (data ++ codeBytes (compute data))) (hlen : data.length = 8) :
    ∃ t, exec (.vrfy k) s = .next t ∧ t.rsps = s.rsps ++ [⟨0, 1⟩] := by
  have hmin : kindMinLen k ≤ data.length + 2 := by rw [hlen]; cases k <;> decide
  have hdata : kindDataLen k (data.length + 2) = data.length := by
    rw [hlen]
    cases k with
    | rsp => exact absurd rfl hk
    | req => rfl
    | gen => rfl
  refine ⟨_, exec_vrfy_of_holds h (length_codeBytes _) (by omega) hmin hdata, ?_⟩
  rw [State.answered_rsps, decide_eq_true rfl]
  rfl

end Bytes

end Sys2Proof.Machine
end

section
/-! The statements about the frame buffer's commands: R90, R92, R94. -/

namespace Sys2Proof.Proofs

open Sys2Proof.Machine Sys2Proof.Claims

/-! ### No other word of the opcode is legal (R57) -/

theorem otherWordsIllegal_push : otherWordsIllegal 1 (fun w => ∃ d : Byte, w = 0x1000#16 + d.setWidth 16) :=
  otherWordsIllegal_of_encode (op := 1) fun i _ h => by
    cases i with
    | push d => exact ⟨d, encode_push d⟩
    | _ => simp [encode] at h

theorem otherWordsIllegal_rdfb :
    otherWordsIllegal 10 (fun w => ∃ i : Nibble, i.toNat ≤ 9 ∧ w = 0xA000#16 + i.setWidth 16 * 256) :=
  otherWordsIllegal_of_encode (op := 10) fun i hwf h => by
    cases i with
    | rdfb j => exact ⟨j, of_decide_eq_true hwf, encode_rdfb j⟩
    | _ => simp [encode] at h

theorem otherWordsIllegal_seal : otherWordsIllegal 6 (· = 0x6000) :=
  otherWordsIllegal_of_encode (op := 6) fun i _ h => by
    cases i with
    | sealReq => rfl
    | _ => simp [encode] at h

/-! ### The rules -/

/-- Settles O22: the answer of `PUSH` below `LEN = 10` and its fault at 10; the two bytes of the example stand behind a reset
buffer. -/
theorem pushAppendsOneByte : Obligations.PushAppendsOneByte := by
  refine ⟨fun d => decode_eq_command_iff.2 ⟨rfl, encode_push d⟩, otherWordsIllegal_push,
    fun d s hfull => exec_faultState (.push hfull), fun d s hlen => ⟨(s.blk.pushed d).fb, ?_, toNat_len_succ hlen, ?_⟩,
    fun d s hlen => ⟨_, exec_okState (.push (by rw [hlen]; decide)), ?_, ?_⟩, fun s => ?_⟩
  · rw [← lenVal_succ hlen]
    exact exec_okState (.push hlen)
  · exact fun hwf a => (Block.read_pushed d hwf).trans (if_congr eq_comm rfl rfl)
  · exact congrArg (· + 1) hlen
  · exact congrArg (fun n => s.rsps ++ [⟨0, lenVal (n + 1)⟩]) hlen
  · have hold := (Block.reset_holds.pushed (by decide) 0x02).pushed (by decide) 0x3B
    have hfirst : Block.reset.len.toNat < 10 := by decide
    have hsecond : (Block.reset.pushed 0x02).len.toNat < 10 := by decide
    refine ⟨_, _, _, exec_okState .clr, exec_okState (.push hfirst), exec_okState (.push hsecond), rfl, hold.bytes, ?_⟩
    simp only [okState, List.append_assoc]
    rfl

/-- Settles O24: the answer of `SEAL` at eight bytes and its fault at any other `LEN`; the buffer it leaves ends in the code of
its data, which is what both checks look for. -/
theorem sealAppendsCode : Obligations.SealAppendsCode := by
  refine ⟨by decide, otherWordsIllegal_seal, fun s hlen => exec_faultState (.sealReq hlen),
    fun s hlen => ⟨s.blk.sealed.fb, ?_, Block.read_sealed⟩, by decide +kernel, by decide +kernel, fun s hlen hwf => ?_,
    fun s hlen hwf hbytes => ?_⟩
  · rw [exec_okState (.sealReq hlen), Block.codeOf_crcOf, Block.sealed, Block.crcOf_eq_firstBytes]
    rfl
  · have hold := Block.holds_firstBytes_eight hlen hwf
    have hchecks {k : FrameKind} (hk : k ≠ .rsp) := exec_vrfy_of_sealed hk
      (s := s.answered s.blk.sealed ⟨0, codeVal (compute (firstBytes s.blk 8))⟩) (hold.sealed rfl) rfl
    obtain ⟨u, hu, hru⟩ := hchecks (k := .req) (by decide)
    obtain ⟨v, hv, hrv⟩ := hchecks (k := .gen) (by decide)
    exact ⟨_, u, v, exec_seal_of_holds hold rfl, hu, hv, hru, hrv⟩
  · have hold := Block.holds_firstBytes_eight hlen hwf
    rw [hbytes] at hold
    obtain ⟨-, -, hregister, hcode, -⟩ := codeIsComplementLowByteFirst
    have hsealed := hold.sealed rfl
    rw [hcode] at hsealed
    refine ⟨_, exec_seal_of_holds hold rfl, ?_, rfl, ?_, hsealed.bytes⟩
    · exact (Block.crcOf_eq_firstBytes s.blk 8).trans (hbytes ▸ hregister)
    · rw [State.answered_rsps, hcode]
      rfl

/-- Settles O23: the length check of `RDFB` and no other, and the example bytes stand at 8 and 9. -/
theorem rdfbReadsRawByte : Obligations.RdfbReadsRawByte := by
  refine ⟨fun i hi => decode_eq_command_iff.2 ⟨decide_eq_true hi, encode_rdfb i⟩, otherWordsIllegal_rdfb,
    fun i s hi hlen => exec_faultState (.rdfb hi hlen), fun i s hi hlen => ?_,
    fun s hlen => exec_faultState (.rdfb (by decide) (congrArg BitVec.toNat hlen).le), fun s hlen hbytes => ⟨?_, ?_⟩⟩
  · rw [exec_okState (.rdfb hi hlen), byteVal_eq_ofNat]
  · exact exec_rdfb_of_read (i := 8) (by decide) (by rw [hlen]; decide) (read_of_firstBytes hbytes rfl)
  · exact exec_rdfb_of_read (i := 9) (by decide) (by rw [hlen]; decide) (read_of_firstBytes hbytes rfl)

end Sys2Proof.Proofs
end

section
/-! The words and the answers of the field extractor in the bytes it reads (R100 to R106). -/

namespace Sys2Proof.Machine

open Sys2Proof.Claims Sys2Proof.Proofs

theorem encode_xbyt (i : Nibble) : encode (.xbyt i) = 0x9000#16 + i.setWidth 16 * 256 := commandWord_small 9 i

/-! ### Four bytes as a word (R34, R101) -/

/-- The four weights are powers of `2^8`, so the word is its bytes side by side, first byte on top. -/
theorem be32_eq_append (b0 b1 b2 b3 : Byte) : be32 b0 b1 b2 b3 = b0 ++ b1 ++ b2 ++ b3 := by
  apply BitVec.eq_of_toNat_eq
  have happend {n : Nat} (x : BitVec n) (b : Byte) : (x ++ b).toNat = x.toNat * 256 + b.toNat := by
    rw [BitVec.toNat_append, ← Nat.shiftLeft_add_eq_or_of_lt b.isLt, Nat.shiftLeft_eq]
  simp only [toNat_be32, happend]
  omega

/-- The word as the OR of its shifted bytes. -/
theorem be32_eq_or (b0 b1 b2 b3 : Byte) :
    be32 b0 b1 b2 b3 =
      (b0.setWidth 32 <<< 24) ||| (b1.setWidth 32 <<< 16) ||| (b2.setWidth 32 <<< 8) ||| b3.setWidth 32 := by
  rw [be32_eq_append]
  exact (BitVec.setWidth_eq _).symm.trans BitVec.setWidth_append_append_append_eq_shiftLeft_setWidth_or

/-- Different bytes make different words: the sum is an expansion in base 256. -/
theorem be32_injective : Function.Injective fun p : Byte × Byte × Byte × Byte => be32 p.1 p.2.1 p.2.2.1 p.2.2.2 := by
  rintro ⟨a0, a1, a2, a3⟩ ⟨b0, b1, b2, b3⟩ h
  have hsum := congrArg BitVec.toNat h
  simp only [toNat_be32] at hsum
  simp only [Prod.mk.injEq, ← BitVec.toNat_inj]
  omega

/-- A word is made of its own four bytes. -/
theorem be32_extractLsb' (v : Word32) :
    be32 (v.extractLsb' 24 8) (v.extractLsb' 16 8) (v.extractLsb' 8 8) (v.extractLsb' 0 8) = v := by
  apply BitVec.eq_of_toNat_eq
  simp only [toNat_be32, BitVec.extractLsb'_toNat, Nat.shiftRight_eq_div_pow]
  omega

theorem be32_bijective : Function.Bijective fun p : Byte × Byte × Byte × Byte => be32 p.1 p.2.1 p.2.2.1 p.2.2.2 :=
  ⟨be32_injective, fun v => ⟨(_, _, _, _), be32_extractLsb' v⟩⟩

/-! ### The gate of the typed reads (R105) -/

/-- A typed read answers on a verified buffer of at least eight bytes only. -/
theorem Answers.gate_of_typedRead {i : Instr} {b b' : Block} {v : Word32} (h : Answers i b b' v)
    (hi : i = .xfld ∨ ∃ j, i = .xbyt j) : 8 ≤ b.len.toNat ∧ b.vok = true := by
  rcases hi with rfl | ⟨j, rfl⟩
  · cases h with
    | xfld hlen hvok => exact ⟨hlen, hvok⟩
  · cases h with
    | xbyt _ hlen hvok => exact ⟨hlen, hvok⟩

/-- What R17 says of a verified buffer, as the frame check of R80. -/
theorem Block.Inv.frameGood_of_vok {b : Block} (h : b.Inv) (hvok : b.vok = true) : frameGood b 6 = true := by
  obtain ⟨-, hcode⟩ := h.verified hvok
  rw [← Block.matchAt_eq_frameGood]
  exact (codeMatches_iff _ _ _).2 hcode

/-! ### The typed reads by the bytes that stand in the buffer -/

section Bytes

variable {s : State}

/-- `XFLD` of a verified response, by its four data bytes (R100). -/
theorem exec_xfld_of_reads {b0 b1 b2 b3 : Byte} (hlen : 8 ≤ s.blk.len.toNat) (hvok : s.blk.vok = true)
    (h0 : s.blk.fb.read 2 = b0) (h1 : s.blk.fb.read 3 = b1) (h2 : s.blk.fb.read 4 = b2) (h3 : s.blk.fb.read 5 = b3) :
    exec .xfld s = .next (okState s s.blk (be32 b0 b1 b2 b3)) := by
  rw [exec_okState (.xfld hlen hvok), dataField, h0, h1, h2, h3]

/-- `XBYT` of a legal index on a verified response, by the byte that stands there (R106). -/
theorem exec_xbyt_of_read {i : Nibble} {d : Byte} (hi : i.toNat ≤ 5) (hlen : 8 ≤ s.blk.len.toNat)
    (hvok : s.blk.vok = true) (hd : s.blk.fb.read i.toNat = d) :
    exec (.xbyt i) s = .next (okState s s.blk (byteVal d)) := by
  rw [exec_okState (.xbyt hi hlen hvok), hd]

end Bytes

end Sys2Proof.Machine
end

section
/-! The statements about the field extractor: R100 to R106. -/

namespace Sys2Proof.Proofs

open Sys2Proof.Machine Sys2Proof.Claims

/-! ### No other word of the opcode is legal (R57) -/

theorem otherWordsIllegal_xfld : otherWordsIllegal 8 (· = 0x8000) :=
  otherWordsIllegal_of_encode (op := 8) fun i _ h => by
    cases i with
    | xfld => rfl
    | _ => simp [encode] at h

theorem otherWordsIllegal_xbyt :
    otherWordsIllegal 9 (fun w => ∃ i : Nibble, i.toNat ≤ 5 ∧ w = 0x9000#16 + i.setWidth 16 * 256) :=
  otherWordsIllegal_of_encode (op := 9) fun i hwf h => by
    cases i with
    | xbyt j => exact ⟨j, of_decide_eq_true hwf, encode_xbyt j⟩
    | _ => simp [encode] at h

/-! ### The rules -/

/-- Settles O16: the bytes stand side by side in the word, so their sum does not overflow and loses nothing. -/
theorem be32Arithmetic : Obligations.Be32Arithmetic :=
  ⟨fun b0 b1 b2 b3 => ⟨toNat_be32 b0 b1 b2 b3, be32_eq_or b0 b1 b2 b3⟩, be32_bijective⟩

/-- Settles O25: the two checks of `XFLD` in order, and the lanes of the data field it responds with. -/
theorem xfldExtractsField : Obligations.XfldExtractsField := by
  refine ⟨by decide, otherWordsIllegal_xfld, fun s hlen => exec_faultState (.xfldShort hlen),
    fun s hlen hvok => exec_faultState (.xfldUnverified hlen hvok), fun s hlen hvok => ?_, fun s hlen hvok hbytes => ?_⟩
  · have lane {j : Nat} (hj : j < 4) := extractLsb'_dataField s.blk.fb hj
    exact ⟨dataField s.blk.fb, exec_okState (.xfld hlen hvok), toNat_be32 _ _ _ _, lane (j := 0) (by decide),
      lane (j := 1) (by decide), lane (j := 2) (by decide), lane (j := 3) (by decide)⟩
  · have hread {i : Nat} {d : Byte} := read_of_firstBytes (i := i) (d := d) hbytes
    have hvalue : be32 0x00 0x01 0x86 0xA0 = 100000 := by decide
    rw [← hvalue]
    exact exec_xfld_of_reads (by rw [hlen]; decide) hvok (hread rfl) (hread rfl) (hread rfl) (hread rfl)

/-- Settles O26: the two checks of `XBYT` in order, and the byte at its index as a number. -/
theorem xbytExtractsPayloadByte : Obligations.XbytExtractsPayloadByte := by
  refine ⟨fun i hi => decode_eq_command_iff.2 ⟨decide_eq_true hi, encode_xbyt i⟩, otherWordsIllegal_xbyt,
    fun i s hi hlen => exec_faultState (.xbytShort hi hlen),
    fun i s hi hlen hvok => exec_faultState (.xbytUnverified hi hlen hvok), fun i s hi hlen hvok => ?_,
    fun s hlen hvok hbytes => ?_⟩
  · rw [exec_okState (.xbyt hi hlen hvok), byteVal_eq_ofNat]
  · have hlen8 : 8 ≤ s.blk.len.toNat := by rw [hlen]; decide
    exact ⟨exec_xbyt_of_read (i := 0) (by decide) hlen8 hvok (read_of_firstBytes hbytes rfl),
      exec_xbyt_of_read (i := 1) (by decide) hlen8 hvok (read_of_firstBytes hbytes rfl),
      exec_xbyt_of_read (i := 4) (by decide) hlen8 hvok (read_of_firstBytes hbytes rfl)⟩

/-- Settles O28: an answer passed the gate, and the invariant says what `VOK` stands for. -/
theorem typedReadsOnlyOfVerifiedFrames : Obligations.TypedReadsOnlyOfVerifiedFrames := by
  intro i s t v hinv hi h hr
  obtain ⟨hlen, hvok⟩ := (answers_of_ok h hr).gate_of_typedRead hi
  exact ⟨hvok, hlen, hinv.frameGood_of_vok hvok⟩

/-- Settles O60: the sample patterns evaluate, and the mantissa of the second is `1500.25 * 2^13`. -/
theorem hostViewsOfField : Obligations.HostViewsOfField :=
  ⟨rfl, by decide, by norm_num, by decide, by decide, by decide⟩

end Sys2Proof.Proofs
end

section
/-! The status view field by field (R16, R122); it speaks of the model's own definitions only. -/

namespace Sys2Proof.Machine

/-- The word `v` holds the flags of `b` in the fields of R16, zeros elsewhere. -/
structure StatusFields (b : Block) (v : Word32) : Prop where
  crc : v.extractLsb' 16 16 = b.crc
  zerosBelowCrc : v.extractLsb' 12 4 = 0#4
  err : v.extractLsb' 8 4 = b.err
  zerosBelowErr : v.extractLsb' 5 3 = 0#3
  vok : v.getLsbD 4 = b.vok
  len : v.extractLsb' 0 4 = b.len

section StatusView

variable {b : Block}

/-- The sum of R122 does not overflow. -/
theorem toNat_statusView : (statusView b).toNat =
    b.crc.toNat * 65536 + b.err.toNat * 256 + b.vok.toNat * 16 + b.len.toNat := by
  have hvok := Bool.toNat_le b.vok
  rw [statusView, BitVec.toNat_ofNat]
  omega

/-- A run of bits of the view is `x`, if it is so in the sum, where `VOK` adds at most 16. -/
theorem extractLsb'_statusView {start n : Nat} {x : BitVec n} (h : b.vok.toNat ≤ 1 →
      (b.crc.toNat * 65536 + b.err.toNat * 256 + b.vok.toNat * 16 + b.len.toNat) / 2 ^ start % 2 ^ n = x.toNat) :
    (statusView b).extractLsb' start n = x := by
  apply BitVec.eq_of_toNat_eq
  rw [BitVec.extractLsb'_toNat, toNat_statusView, Nat.shiftRight_eq_div_pow, h (Bool.toNat_le _)]

/-- Bit 4 of the sum is `VOK`. -/
theorem getLsbD_statusView : (statusView b).getLsbD 4 = b.vok := by
  have hbit : (statusView b).toNat / 2 ^ 4 % 2 = b.vok.toNat := by
    have hvok := Bool.toNat_le b.vok
    rw [toNat_statusView]
    omega
  rw [BitVec.getLsbD, Nat.testBit_eq_decide_div_mod_eq, hbit]
  cases b.vok <;> rfl

theorem statusView_fields (b : Block) : StatusFields b (statusView b) where
  crc := extractLsb'_statusView fun _ => by omega
  zerosBelowCrc := extractLsb'_statusView fun _ => by rw [BitVec.toNat_ofNat]; omega
  err := extractLsb'_statusView fun _ => by omega
  zerosBelowErr := extractLsb'_statusView fun _ => by rw [BitVec.toNat_ofNat]; omega
  vok := getLsbD_statusView
  len := extractLsb'_statusView fun _ => by omega

end StatusView

end Sys2Proof.Machine
end

section
/-! What `STAT` answers, and what a command does to `LEN` (R120, R122). -/

namespace Sys2Proof.Machine

open Sys2Proof.Claims

/-! ### `STAT` (R122) -/

/-- `STAT` by the values that stand in the fields (R122). -/
theorem exec_stat_of_fields {s : State} {c : Word16} {e n : Nibble} {k : Bool} {v : Word32} (hcrc : s.blk.crc = c)
    (herr : s.blk.err = e) (hvok : s.blk.vok = k) (hlen : s.blk.len = n)
    (hv : BitVec.ofNat 32 (c.toNat * 65536 + e.toNat * 256 + k.toNat * 16 + n.toNat) = v) :
    exec .stat s = .next (okState s s.blk v) := by
  rw [exec_okState .stat, statusView, hcrc, herr, hvok, hlen, hv]

/-! ### `LEN` (R12, R120) -/

/-- An answering command other than `CLR` does not lower `LEN`: `PUSH` adds 1, `SEAL` goes from 8 to 10. -/
theorem Answers.len_le {i : Instr} {b b' : Block} {v : Word32} (h : Answers i b b' v) (hclr : i ≠ .clr) :
    b.len.toNat ≤ b'.len.toNat := by
  cases h with
  | clr => exact absurd rfl hclr
  | push hlen => exact (Nat.le_succ _).trans_eq (toNat_len_succ hlen).symm
  | sealReq hlen => exact hlen ▸ Nat.le_add_right 8 2
  | _ => exact Nat.le_refl _

/-- No command but `CLR` lowers `LEN` (R120). -/
theorem exec_len_le {i : Instr} {s t : State} (h : exec i s = .next t) (hclr : i ≠ .clr) :
    s.blk.len.toNat ≤ t.blk.len.toNat := by
  rcases exec_next h with ⟨b, v, hans, rfl⟩ | ⟨f, -, rfl⟩
  · exact hans.len_le hclr
  · exact Nat.le_refl _

end Sys2Proof.Machine
end

section
/-! The statements about the system commands: R120 and R122. -/

namespace Sys2Proof.Proofs

open Sys2Proof.Machine Sys2Proof.Claims

/-! ### No other word of the opcode is legal (R57) -/

theorem otherWordsIllegal_clr : otherWordsIllegal 0 (· = 0x0000) :=
  otherWordsIllegal_of_encode (op := 0) fun i _ h => by
    cases i with
    | clr => rfl
    | _ => simp [encode] at h

theorem otherWordsIllegal_stat : otherWordsIllegal 11 (· = 0xB000) :=
  otherWordsIllegal_of_encode (op := 11) fun i _ h => by
    cases i with
    | stat => rfl
    | _ => simp [encode] at h

/-! ### The rules -/

/-- Settles O30: the answer of `STAT` in every state, and the fields of the view it responds with. -/
theorem statReadsStatusView : Obligations.StatReadsStatusView :=
  ⟨by decide, otherWordsIllegal_stat,
    fun s => by
      obtain ⟨hcrc, hzeros, herr, hzeros', hvok, hlen⟩ := statusView_fields s.blk
      exact ⟨statusView s.blk, exec_okState .stat, toNat_statusView, hcrc, hzeros, herr, hzeros', hvok, hlen⟩,
    exec_stat_of_fields rfl rfl rfl rfl (by decide),
    fun _ hcrc herr hvok hlen => exec_stat_of_fields hcrc herr hvok hlen (by decide),
    fun _ hcrc herr hvok hlen => exec_stat_of_fields hcrc herr hvok hlen (by decide)⟩

/-- Settles O29: `CLR` answers with the reset block; every other command keeps a recorded fault and does not lower `LEN`. -/
theorem clrRestoresResetState : Obligations.ClrRestoresResetState := by
  refine ⟨by decide, otherWordsIllegal_clr, fun s => exec_okState .clr, fun s t h => ?_,
    fun i s t hclr h => ⟨fun he => ?_, fun _ => exec_len_le h hclr⟩, exec_okState .clr⟩
  · rw [exec_clr_eq] at h
    obtain rfl := respond_next h
    exact ⟨rfl, rfl, rfl, rfl, fun _ => rfl⟩
  · rw [exec_err_kept h hclr he]
    exact he

end Sys2Proof.Proofs
end

section
/-! When each fault is taken, as the rules R132 to R135 list the conditions, and that none of it depends on `ERR` (R142). -/

namespace Sys2Proof.Machine

open Sys2Proof.Claims

/-! ### The conditions of the four faults -/

theorem FaultCode.code_injective : Function.Injective FaultCode.code := by
  intro f g
  cases f <;> cases g <;> decide

section Conditions

variable {i : Instr} {b : Block} {f : FaultCode}

/-- The table of R133 for `VRFY` is the shortest buffer of each frame kind. -/
theorem tooShort_vrfy_iff {k : FrameKind} {len : Nat} : tooShort (.vrfy k) len ↔ len < kindMinLen k := by
  cases k <;> rfl

theorem faults_illegal_iff : Faults i b .illegal ↔ i.wf = false := by
  constructor
  · rintro ⟨hwf⟩
    exact hwf
  · exact .illFormed

/-- `MALFORMED` is the length check of R133, which an operand in range comes to (R137). -/
theorem faults_malformed_iff : Faults i b .malformed ↔ i.wf = true ∧ tooShort i b.len.toNat := by
  constructor
  · intro h
    cases h with
    | crcf hn hlen => exact ⟨decide_eq_true hn, hlen⟩
    | sealReq hlen => exact ⟨rfl, fun he => hlen (BitVec.eq_of_toNat_eq he)⟩
    | vrfy hlen => exact ⟨rfl, tooShort_vrfy_iff.2 hlen⟩
    | xfldShort hlen => exact ⟨rfl, hlen⟩
    | xbytShort hi hlen => exact ⟨decide_eq_true hi, hlen⟩
    | rdfb hi hlen => exact ⟨decide_eq_true hi, hlen⟩
  · rintro ⟨hwf, hshort⟩
    cases i with
    | crcf n => exact .crcf (of_decide_eq_true hwf) hshort
    | sealReq => exact .sealReq fun he => hshort (congrArg BitVec.toNat he)
    | vrfy k => exact .vrfy (tooShort_vrfy_iff.1 hshort)
    | xfld => exact .xfldShort hshort
    | xbyt j => exact .xbytShort (of_decide_eq_true hwf) hshort
    | rdfb j => exact .rdfb (of_decide_eq_true hwf) hshort
    | clr | push _ | crci | crcb _ | crcr | stat => exact hshort.elim

/-- `OVERFLOW` is a `PUSH` on a full buffer (R134). -/
theorem faults_overflow_iff : Faults i b .overflow ↔ b.len = 10 ∧ ∃ d, i = .push d := by
  constructor
  · intro h
    cases h with
    | push hlen => exact ⟨hlen, _, rfl⟩
  · rintro ⟨hlen, d, rfl⟩
    exact .push hlen

/-- `UNVERIFIED` is a typed read that passes the length check without `VOK` (R135). -/
theorem faults_unverified_iff :
    Faults i b .unverified ↔
      i.wf = true ∧ (i = .xfld ∨ ∃ j, i = .xbyt j) ∧ 8 ≤ b.len.toNat ∧ b.vok = false := by
  constructor
  · intro h
    cases h with
    | xfldUnverified hlen hvok => exact ⟨rfl, .inl rfl, hlen, hvok⟩
    | xbytUnverified hi hlen hvok => exact ⟨decide_eq_true hi, .inr ⟨_, rfl⟩, hlen, hvok⟩
  · rintro ⟨hwf, rfl | ⟨j, rfl⟩, hlen, hvok⟩
    · exact .xfldUnverified hlen hvok
    · exact .xbytUnverified (of_decide_eq_true hwf) hlen hvok

end Conditions

/-! ### The status of a word's response -/

section Status

variable {w : Word16} {s t : State} {r : Response}

/-- The response added is the one given. -/
theorem State.eq_of_answered_rsps {b : Block} {r' : Response} (h : (s.answered b r).rsps = s.rsps ++ [r']) : r = r' := by
  simpa using h

/-- A status of a fault is given by the illegal words, for `ILLEGAL`, and by the commands that take the fault. -/
theorem execWord_st_eq_code_iff (h : execWord w s = .next t) (hr : t.rsps = s.rsps ++ [r]) (f : FaultCode) :
    r.st = f.code ↔
      (f = .illegal ∧ ∃ why, decode w = .illegal why) ∨ ∃ i, decode w = .command i ∧ Faults i s.blk f := by
  cases hw : decode w with
  | illegal why =>
    rw [execWord_illegal hw] at h
    obtain rfl := raise_next h
    obtain rfl := State.eq_of_answered_rsps hr
    simpa using FaultCode.code_injective.eq_iff.trans eq_comm
  | command i =>
    rw [execWord_command hw] at h
    simp only [reduceCtorEq, exists_false, and_false, false_or, Decoded.command.injEq, exists_eq_left']
    constructor
    · intro hst
      obtain ⟨g, hflt, -, hg⟩ := faults_of_not_ok h hr (hst ▸ f.code_bounds.1)
      exact FaultCode.code_injective (hg.symm.trans hst) ▸ hflt
    · intro hflt
      rw [exec_of_faults hflt] at h
      cases h
      obtain rfl := State.eq_of_answered_rsps hr
      rfl

/-- No word decodes to an instruction that is not well formed, so `ILLEGAL` is the status of the illegal words alone (R132). -/
theorem execWord_st_illegal_iff (h : execWord w s = .next t) (hr : t.rsps = s.rsps ++ [r]) :
    r.st = FaultCode.illegal.code ↔ ∃ why, decode w = .illegal why := by
  rw [execWord_st_eq_code_iff h hr]
  constructor
  · rintro (⟨-, hwhy⟩ | ⟨i, hi, hflt⟩)
    · exact hwhy
    · exact absurd (faults_illegal_iff.1 hflt) (ne_false_of_eq_true (encode_of_decode hi).1)
  · exact fun hwhy => .inl ⟨rfl, hwhy⟩

/-- The three other statuses are given by the commands that take their fault. -/
theorem execWord_st_eq_code_iff_faults (h : execWord w s = .next t) (hr : t.rsps = s.rsps ++ [r]) {f : FaultCode}
    (hf : f ≠ .illegal) : r.st = f.code ↔ ∃ i, decode w = .command i ∧ Faults i s.blk f := by
  rw [execWord_st_eq_code_iff h hr]
  exact or_iff_right fun ⟨he, _⟩ => hf he

theorem execWord_st_malformed_iff (h : execWord w s = .next t) (hr : t.rsps = s.rsps ++ [r]) :
    r.st = FaultCode.malformed.code ↔ ∃ i, decode w = .command i ∧ tooShort i s.blk.len.toNat := by
  rw [execWord_st_eq_code_iff_faults h hr (by decide)]
  refine exists_congr fun i => and_congr_right fun hi => ?_
  rw [faults_malformed_iff, and_iff_right (encode_of_decode hi).1]

theorem execWord_st_overflow_iff (h : execWord w s = .next t) (hr : t.rsps = s.rsps ++ [r]) :
    r.st = FaultCode.overflow.code ↔ s.blk.len = 10 ∧ ∃ d, decode w = .command (.push d) := by
  rw [execWord_st_eq_code_iff_faults h hr (by decide)]
  constructor
  · rintro ⟨i, hi, hflt⟩
    obtain ⟨hlen, d, rfl⟩ := faults_overflow_iff.1 hflt
    exact ⟨hlen, d, hi⟩
  · rintro ⟨hlen, d, hi⟩
    exact ⟨_, hi, .push hlen⟩

theorem execWord_st_unverified_iff (h : execWord w s = .next t) (hr : t.rsps = s.rsps ++ [r]) :
    r.st = FaultCode.unverified.code ↔
      (decode w = .command .xfld ∨ ∃ j, decode w = .command (.xbyt j)) ∧ 8 ≤ s.blk.len.toNat ∧ s.blk.vok = false := by
  rw [execWord_st_eq_code_iff_faults h hr (by decide)]
  constructor
  · rintro ⟨i, hi, hflt⟩
    obtain ⟨-, rfl | ⟨j, rfl⟩, hgate⟩ := faults_unverified_iff.1 hflt
    · exact ⟨.inl hi, hgate⟩
    · exact ⟨.inr ⟨j, hi⟩, hgate⟩
  · rintro ⟨hi | ⟨j, hi⟩, hgate⟩
    · exact ⟨_, hi, faults_unverified_iff.2 ⟨rfl, .inl rfl, hgate⟩⟩
    · exact ⟨_, hi, faults_unverified_iff.2 ⟨(encode_of_decode hi).1, .inr ⟨j, rfl⟩, hgate⟩⟩

/-- A word that responds with a status other than `OK` has raised the fault of that status (R140). -/
theorem execWord_faultState (h : execWord w s = .next t) (hr : t.rsps = s.rsps ++ [r]) (hst : r.st ≠ 0) :
    t = faultState s r.st := by
  rcases execWord_next h with ⟨i, b, v, -, -, rfl⟩ | ⟨i, f, -, -, rfl⟩ | ⟨why, -, rfl⟩ <;>
    obtain rfl := State.eq_of_answered_rsps hr
  · exact absurd rfl hst
  · rfl
  · rfl

end Status

/-! ### `ERR` is read by `STAT` only (R142) -/

/-- The fault of a command is the same whatever `ERR` holds: each of the four conditions reads `LEN` and `VOK` only. -/
theorem faults_with_err_iff {i : Instr} {b : Block} {f : FaultCode} {e : Nibble} :
    Faults i { b with err := e } f ↔ Faults i b f := by
  cases f with
  | illegal => rw [faults_illegal_iff, faults_illegal_iff]
  | malformed => rw [faults_malformed_iff, faults_malformed_iff]
  | overflow => rw [faults_overflow_iff, faults_overflow_iff]
  | unverified => rw [faults_unverified_iff, faults_unverified_iff]

/-- The answer of a command other than `STAT` is the same whatever `ERR` holds, and so is the block but for `ERR`. -/
theorem Answers.with_err {i : Instr} {b b' : Block} {v : Word32} (h : Answers i b b' v) (hstat : i ≠ .stat) (e : Nibble) :
    ∃ e', Answers i { b with err := e } { b' with err := e' } v := by
  cases h with
  | clr => exact ⟨0, .clr⟩
  | push hlen => exact ⟨e, .push hlen⟩
  | crci => exact ⟨e, .crci⟩
  | crcb => exact ⟨e, .crcb⟩
  | crcr => exact ⟨e, .crcr⟩
  | crcf hn hlen => exact ⟨e, .crcf hn hlen⟩
  | sealReq hlen => exact ⟨e, .sealReq hlen⟩
  | vrfy hmin hend => exact ⟨e, .vrfy hmin hend⟩
  | xfld hlen hvok => exact ⟨e, .xfld hlen hvok⟩
  | xbyt hi hlen hvok => exact ⟨e, .xbyt hi hlen hvok⟩
  | rdfb hi hlen => exact ⟨e, .rdfb hi hlen⟩
  | stat => exact absurd rfl hstat

/-- With another value in `ERR` a word other than `STAT` gives the same response and leaves the same block but for `ERR`. -/
theorem execWord_with_err {w : Word16} {s : State} {b : Block} {r : Response} (hstat : decode w ≠ .command .stat)
    (h : execWord w s = .next (s.answered b r)) (e : Nibble) :
    ∃ e', execWord w { s with blk := { s.blk with err := e } } = .next (s.answered { b with err := e' } r) := by
  rcases execWord_next h with ⟨i, b', v, hi, hans, he⟩ | ⟨i, f, hi, hflt, he⟩ | ⟨why, hwhy, he⟩ <;>
    obtain ⟨rfl, rfl⟩ := State.answered_inj he
  · obtain ⟨e', hans'⟩ := hans.with_err (fun his => hstat (his ▸ hi)) e
    exact ⟨e', (execWord_command hi _).trans (exec_of_answers hans')⟩
  · exact ⟨_, (execWord_command hi _).trans (exec_of_faults (faults_with_err_iff.2 hflt))⟩
  · exact ⟨_, execWord_illegal hwhy _⟩

/-! ### An index of no word (R57) -/

/-- An `XBYT` word with an index above 5 is illegal, whatever its `d` field (R57). -/
theorem decode_xbyt_out_of_range {i : Nibble} (hi : 5 < i.toNat) (d : Byte) :
    ∃ why, decode (commandWord 9 i d) = .illegal why := by
  rw [decode, fieldOp_commandWord, fieldA_commandWord, fieldD_commandWord]
  exact decodeSmall_illegal_iff.2 (.inr hi)

end Sys2Proof.Machine
end

section
/-! The statements about faults: R131 to R142. -/

namespace Sys2Proof.Proofs

open Sys2Proof.Machine Sys2Proof.Claims

/-- Settles O31: a status other than `OK` is given by `raise` only. -/
theorem faultsArePrecise : Obligations.FaultsArePrecise :=
  ⟨raise_eq_faultState, fun _ _ _ _ => execWord_faultState⟩

/-- Settles O32: the codes are different, so a status tells the fault, and each fault has its own condition. -/
theorem faultCodesAndTheirCommands : Obligations.FaultCodesAndTheirCommands := by
  refine ⟨⟨rfl, rfl, rfl, rfl⟩, fun f s t h => ?_, fun w s t r h hr => ⟨?_, execWord_st_illegal_iff h hr,
    execWord_st_malformed_iff h hr, execWord_st_overflow_iff h hr, execWord_st_unverified_iff h hr⟩⟩
  · rw [raise_next h]
    exact ⟨rfl, Block.noteFault_err_of_eq f⟩
  · obtain ⟨b, r', rfl, hst, -⟩ := execWord_answered h
    obtain rfl := State.eq_of_answered_rsps hr
    exact hst

/-- Settles O35: no check and no effect of a command but `STAT` reads `ERR`. -/
theorem errBlocksNothing : Obligations.ErrBlocksNothing := by
  intro w e s t hstat h
  obtain ⟨b, r, rfl, -, -⟩ := execWord_answered h
  obtain ⟨e', h'⟩ := execWord_with_err hstat h e
  exact ⟨_, h', rfl, rfl, rfl, rfl, rfl⟩

/-- Settles O33: the decoder refuses a word before any state is read, and a typed read checks `LEN` before `VOK`. -/
theorem faultPriority : Obligations.FaultPriority := by
  refine ⟨fun _ _ s h => execWord_illegal_eq h s, fun i s hi d => ?_, fun s hlen => ?_, fun i s hi hlen => ?_⟩
  · obtain ⟨why, hwhy⟩ := decode_xbyt_out_of_range hi d
    exact execWord_illegal_eq hwhy s
  · exact (execWord_command (decode_encode (i := .xfld) rfl) s).trans (exec_faultState (.xfldShort hlen))
  · exact (execWord_command (decode_encode (i := .xbyt i) (decide_eq_true hi)) s).trans
      (exec_faultState (.xbytShort hi hlen))

end Sys2Proof.Proofs
end

section
/-! The ports after a reset edge (R161, log entry 9). -/

namespace Sys2Proof.Machine

section InReset

variable {q : PortState} {i : PortIn}

/-- Nothing is accepted on an edge with `rst = 1`, whatever the phase (R161). -/
theorem accepts_of_rst (p : PortState) (h : i.rst = true) : p.accepts i = false := by
  simp [PortState.accepts, h]

/-- A response due is abandoned: nothing is pending after a reset edge (R161). -/
theorem pending_of_inReset (h : q.phase = .inReset) : q.pending = [] := by
  simp [PortState.pending, h]

/-- After a reset edge `cmd_ready` is 1 as soon as `rst` is 0, and no response stands on the ports (R161). -/
theorem out_of_inReset (h : q.phase = .inReset) (rst : Bool) :
    (q.out rst).cmdReady = !rst ∧ (q.out rst).rspValid = false := by
  simp [PortState.out, PortState.ready, PortState.responding, h]

/-- The first edge with `rst = 0` accepts the word presented (R161). -/
theorem accepts_of_inReset (h : q.phase = .inReset) (hrst : i.rst = false) (hvalid : i.cmdValid = true) :
    q.accepts i = true := by
  simp [PortState.accepts, PortState.ready, h, hrst, hvalid]

end InReset

end Sys2Proof.Machine
end

section
/-! The statements about reset: R160 and R161. -/

namespace Sys2Proof.Proofs

open Sys2Proof.Machine Sys2Proof.Claims

/-- Settles O54: a reset edge leads to the phase `inReset` from every phase, and the ports in that phase are as R161 says. -/
theorem portResetWins : Obligations.PortResetWins := by
  intro lat p i hrst
  refine ⟨accepts_of_rst p hrst, _, clockEdge_rst hrst, rfl, pending_of_inReset rfl, ?_⟩
  obtain ⟨hready, hvalid⟩ := out_of_inReset (q := ⟨Block.reset, .inReset, p.edges + 1⟩) rfl true
  exact ⟨hready, hvalid, (out_of_inReset rfl false).1, fun j hj hv => accepts_of_inReset rfl hj hv⟩

/-- Settles O46: the fields of the reset block, the view `STAT` makes of them, and the block `CLR` answers with. -/
theorem resetStateValues : Obligations.ResetStateValues :=
  ⟨Block.reset_crc, Block.reset_len, Block.reset_vok, Block.reset_err, fun _ => rfl,
    exec_stat_of_fields Block.reset_crc Block.reset_err Block.reset_vok Block.reset_len (by decide),
    fun _ => ⟨_, exec_okState .clr, rfl⟩⟩

end Sys2Proof.Proofs
end
